-- ==== Sys2Proof/Word.lean ====
section
/-!
DEFINITION. The widths of CKCORE's values (00_scope.md R8, R14): every value is an 8-bit byte, a 32-bit half-word or
a 64-bit block; an offset into the 4096-byte register window has 12 bits (20_memory.md R50).
-/

namespace Sys2Proof

/-- A byte (R8). -/
abbrev Byte := BitVec 8

/-- A 32-bit half-word, and the width of every register of the window (R8, R21). -/
abbrev Word := BitVec 32

/-- A 64-bit block or master key (R6, R8). -/
abbrev Block := BitVec 64

/-- A byte offset from CK_BASE into the 4096-byte window, 0x000 to 0xFFF (R50). -/
abbrev Offset := BitVec 12

/-- One round-key schedule: T = 26 words of 32 bits (R6, R32). -/
abbrev RoundKeys := Vector Word 26

end Sys2Proof
end

