-- ==== Sys2Proof/Config.lean ====
section
/-!
DEFINITION. What the spec leaves open: the OPEN parameters of 00_scope.md R7 and the free values `draw()` of R12.
Each is a constant with no body, so no proof can learn a value of it, and a theorem holds whatever it is.
-/

namespace Sys2Proof

/-- `draw()`: the value the `n`-th free read returns (R12, R33, R56; 93_implementation_defined.md U1, U2).
Each read that the spec leaves open takes a fresh `n` from `State.draws`, so draws are independent per read.
DESIGN CHOICE (safe), log entry 2. -/
opaque Config.draw : Nat → Word

/-- CK_LATENCY (R7, R245; U7): how many host steps the `n`-th accepted command waits before it completes while the
host still has actions to take. It is OPEN, may differ from command to command, and is finite by its type, which is
the progress assumption of R242. DESIGN CHOICE (unsafe, as R242 and U6 say of that assumption), log entry 3. -/
opaque Config.latency : Nat → Nat

/-- CK_BASE in units of 4096 bytes: the spec requires CK_BASE to be a multiple of 4096 (R51; U8). -/
opaque Config.ckBasePage : Nat

/-- CK_BASE, the window's base in the host's address space (R7, R51). -/
def Config.ckBase : Nat := 4096 * Config.ckBasePage

/-- NAME_MAX, the largest name length in bytes that the host procedure accepts: OPEN, at most 2^32 - 1 (R7; U9). -/
opaque Config.nameMax : BitVec 32

/-- The `n`-th pseudo-random suffix of policy (a): any 31-bit non-negative integer (44_license.md R179; U10). -/
opaque Config.suffixDraw : Nat → BitVec 31

end Sys2Proof
end

