-- ==== Sys2Proof/Syntax.lean ====
section
/-!
DEFINITION. The command set CK-CMD 1 as syntax (30_encoding.md R80 to R83): one constructor of `Instr` per row of
spec/opcode_table.json. Every constructor carries the three operand fields of the one format CMD32, the ignored ones
too, because the latch PEND holds them all (10_state.md R34).
-/

namespace Sys2Proof

/-- The BANK field: which of the two round-key banks (R32, R80). -/
inductive Bank where
  | bank0
  | bank1
deriving DecidableEq, Repr

/-- The KSRC field: the master key that KSETUP takes (R80, R82). -/
inductive KeySource where
  /-- 0: the latched KEY_HI:KEY_LO. -/
  | key
  /-- 1: NAME_KEY. -/
  | name
  /-- 2: LICENSE_KEY. -/
  | license
  /-- 3: reserved; KSETUP with it is refused with RSVD (R86). -/
  | reserved
deriving DecidableEq, Repr

/-- The operand fields of format CMD32 (R80). -/
structure Fields where
  bank : Bank
  ksrc : KeySource
  imm8 : Byte
deriving DecidableEq, Repr

/-- The eight commands (R83). A field a command ignores is carried and has no effect (R87). -/
inductive Instr where
  /-- OP 0x00, no operation (R101). -/
  | nop (f : Fields)
  /-- OP 0x01, derive the round-key schedule of a master key into a bank (R110). -/
  | ksetup (f : Fields)
  /-- OP 0x02, encrypt the input block (R130). -/
  | enc (f : Fields)
  /-- OP 0x03, decrypt the input block (R131). -/
  | dec (f : Fields)
  /-- OP 0x04, clear the checksum accumulator (R151). -/
  | ckclr (f : Fields)
  /-- OP 0x05, fold one immediate byte into the checksum (R152). -/
  | foldb (f : Fields)
  /-- OP 0x06, encrypt the input block and fold the ciphertext (R153). -/
  | encfold (f : Fields)
  /-- OP 0x07, assemble and decrypt the license candidate (R170). -/
  | licasm (f : Fields)
deriving DecidableEq, Repr

/-- The command errors (60_exceptions.md R201). -/
inductive CmdError where
  /-- Illegal opcode, OP in 0x08 to 0xFF (R85). -/
  | illop
  /-- A reserved field is set, or KSETUP with KSRC = 3 (R86). -/
  | rsvd
  /-- A command that reads a bank whose KV bit is 0 (R33). -/
  | nokey
  /-- CMD or CKSUM written while BUSY = 1 (R200, R205). -/
  | ovr
deriving DecidableEq, Repr

end Sys2Proof
end

