-- ==== Sys2Proof/WellFormed.lean ====
section
/-!
DEFINITION. The one check an instruction term can fail: KSETUP takes KSRC 0, 1 or 2 and never 3 (30_encoding.md R83,
R86; the `field_constraint` of opcode_table.json). Every other field of every command is unconstrained.
-/

namespace Sys2Proof

/-- A command acceptance can latch (R83, R86). -/
def Instr.wellFormed : Instr → Bool
  | .nop _ => true
  | .ksetup f => f.ksrc != .reserved
  | .enc _ => true
  | .dec _ => true
  | .ckclr _ => true
  | .foldb _ => true
  | .encfold _ => true
  | .licasm _ => true

end Sys2Proof
end

