-- ==== Sys2Proof/Decode.lean ====
section
/-!
DEFINITION. Decoding of the 32-bit command word (30_encoding.md R80 to R88), total on every word, and the encoder
written from the same tables.
-/

namespace Sys2Proof

/-- BANK = w[8] (R82). -/
def Bank.ofBit (b : BitVec 1) : Bank := if b = 0#1 then .bank0 else .bank1

/-- The BANK bit of a bank (R80). -/
def Bank.bit : Bank → BitVec 1
  | .bank0 => 0#1
  | .bank1 => 1#1

/-- KSRC = w[10:9] (R82). -/
def KeySource.ofCode (c : BitVec 2) : KeySource :=
  if c = 0#2 then .key else if c = 1#2 then .name else if c = 2#2 then .license else .reserved

/-- The KSRC code of a key source (R80). -/
def KeySource.code : KeySource → BitVec 2
  | .key => 0#2
  | .name => 1#2
  | .license => 2#2
  | .reserved => 3#2

/-- The operand fields of a command (R80). -/
def Instr.fields : Instr → Fields
  | .nop f => f
  | .ksetup f => f
  | .enc f => f
  | .dec f => f
  | .ckclr f => f
  | .foldb f => f
  | .encfold f => f
  | .licasm f => f

/-- The opcode of a command (R83). -/
def Instr.op : Instr → Byte
  | .nop _ => 0x00#8
  | .ksetup _ => 0x01#8
  | .enc _ => 0x02#8
  | .dec _ => 0x03#8
  | .ckclr _ => 0x04#8
  | .foldb _ => 0x05#8
  | .encfold _ => 0x06#8
  | .licasm _ => 0x07#8

/-- The opcode map (R83): the command an opcode stands for, and none for 0x08 to 0xFF (R85). -/
def Instr.ofOp (op : Nat) (f : Fields) : Option Instr :=
  match op with
  | 0 => some (.nop f)
  | 1 => some (.ksetup f)
  | 2 => some (.enc f)
  | 3 => some (.dec f)
  | 4 => some (.ckclr f)
  | 5 => some (.foldb f)
  | 6 => some (.encfold f)
  | 7 => some (.licasm f)
  | _ => none

/-- What decoding yields (R88): a command, or the error that refuses the word. -/
inductive Decoded where
  | cmd (i : Instr)
  | illegal (c : CmdError)
deriving DecidableEq, Repr

/-- The operand fields of a command word (R80, R82). -/
def fieldsOf (w : Word) : Fields where
  bank := Bank.ofBit (w.extractLsb' 8 1)
  ksrc := KeySource.ofCode (w.extractLsb' 9 2)
  imm8 := w.extractLsb' 16 8

/-- A reserved field is set: w[15:11] or w[31:24] is not 0 (R86). -/
def reservedSet (w : Word) : Bool := w.extractLsb' 11 5 != 0#5 || w.extractLsb' 24 8 != 0#8

/-- Decoding, in the order of the spec's own function (R88): the opcode first, then the reserved fields, then
KSETUP's key source. -/
def decode (w : Word) : Decoded :=
  match Instr.ofOp (w.extractLsb' 0 8).toNat (fieldsOf w) with
  | none => .illegal .illop
  | some i => if reservedSet w then .illegal .rsvd else if i.wellFormed then .cmd i else .illegal .rsvd

/-- The command word of a command, from bit 31 down: RSV1, IMM8, RSV0, KSRC, BANK, OP
(R80's pattern `00000000 iiiiiiii 00000kkb oooooooo`). -/
def encode (i : Instr) : Word :=
  0#8 ++ i.fields.imm8 ++ 0#5 ++ i.fields.ksrc.code ++ i.fields.bank.bit ++ i.op

/-- What the decoder reads from an opcode-table row's bits `w`. Every command is one 32-bit word (R81), so the word is
`w` itself, with every bit above `nbits` 0. -/
def decodeTableWord (nbits w : Nat) : Option Instr :=
  match decode (BitVec.ofNat 32 (w % 2 ^ nbits)) with
  | .cmd i => some i
  | .illegal _ => none

end Sys2Proof
end

