-- ==== Sys2Proof/Machine/State.lean ====
section
/-!
DEFINITION. The state of CKCORE (10_state.md R20 to R34) as plain data, and beside it the model's own fields for its
two agents: the host's actions still to come, what the host's reads returned, and the free choices.
The constant ID, the write-only CMD and the derived bit BUSY need no storage (R22, R24, R34; log entry 10).
-/

namespace Sys2Proof.Machine

/-- The operands acceptance latches (R34): KEY_HI:KEY_LO, DIN_HI:DIN_LO and SUFFIX as they were when CMD was written. -/
structure Latched where
  key : Block
  din : Block
  suffix : Word
deriving DecidableEq, Repr

/-- The record in PEND (R34). Its op, bank, ksrc and imm8 are those of `cmd` (DEDUCED, safe, log entry 9). -/
structure Pending where
  cmd : Instr
  ops : Latched
deriving DecidableEq, Repr

/-- What the world outside the block does to it (R20, R230): the host's accesses in program order, its polling loop and its
check of ERR, and the platform's reset. -/
inductive Input where
  /-- `MemRead(off, n)`: a bus read of `n` bytes at a window offset (R12). -/
  | read (off : Offset) (n : Nat)
  /-- `MemWrite(off, n, v)` (R12). Only n = 4 has a meaning, so `v` is 32 bits wide (log entry 6). -/
  | write (off : Offset) (n : Nat) (v : Word)
  /-- `wait`: read STATUS again and again until its bit 0 is 0 (30_encoding.md R90). -/
  | wait
  /-- `rd STATUS -> s; require s[3] == 0`, the end of `run` (30_encoding.md R90). -/
  | require
  /-- The platform's reset input (70_reset_and_hazards.md R230). -/
  | reset
deriving DecidableEq, Repr

/-- One entry of the event history: what a host read returned, or the monotone record of a refusal that R202 asks
a model to keep. -/
inductive Event where
  | readReturned (off : Offset) (v : Word)
  | refused (c : CmdError)
deriving DecidableEq, Repr

/-- What stops the machine. -/
inductive Fault where
  /-- BusError (20_memory.md R52; R206): raised by `hostRead` and `hostWrite` for an access that is not 4 bytes wide
  or not at a multiple of 4. Safe: the spec's own treatment, and the faulted state is never final. -/
  | busError (off : Offset) (n : Nat)
deriving DecidableEq, Repr

/-- What the model declines to give a meaning. -/
inductive Refusal where
  /-- Raised by an arm of `exec` whose instruction has no meaning yet (none has been left so). Safe: the machine
  stops. -/
  | notModelled (mnemonic : String)
deriving DecidableEq, Repr

/-- The state record of R20, and the model's own fields. -/
structure State where
  /-- KEY_LO, master-key bits 31:0 (R25). -/
  keyLo : Word
  /-- KEY_HI, master-key bits 63:32 (R25). -/
  keyHi : Word
  /-- DIN_LO, input block bits 31:0 (R26). -/
  dinLo : Word
  /-- DIN_HI, input block bits 63:32 (R26). -/
  dinHi : Word
  /-- DOUT_LO, result block bits 31:0 (R27). -/
  doutLo : Word
  /-- DOUT_HI, result block bits 63:32 (R27). -/
  doutHi : Word
  /-- CKSUM, the checksum accumulator (R28). -/
  cksum : Word
  /-- SUFFIX (R29). -/
  suffix : Word
  /-- INVAL_LO, candidate bits 31:0 (R30). -/
  invalLo : Word
  /-- INVAL_HI, candidate bits 63:32, the prefix (R30). -/
  invalHi : Word
  /-- VV bits 7:0; bits 31:8 read 0 (R31). -/
  vv : Byte
  /-- KV[0], STATUS.KV0 (R33). -/
  kv0 : Bool
  /-- KV[1], STATUS.KV1 (R33). -/
  kv1 : Bool
  /-- RK[0][0..25] (R32). -/
  rk0 : RoundKeys
  /-- RK[1][0..25] (R32). -/
  rk1 : RoundKeys
  /-- STATUS.ERR (R23, R202). -/
  err : Bool
  /-- STATUS.ECODE (R23, R201). -/
  ecode : BitVec 4
  /-- PEND, the pending-command latch; STATUS.BUSY = 1 exactly when it is not none (R34). -/
  pend : Option Pending
  /-- The model's own: how many more host steps the pending command waits (log entry 3). -/
  countdown : Nat
  /-- The model's own: the actions from outside still to come, the next one first (log entry 4). -/
  inputs : List Input
  /-- The model's own: what has happened, the latest first (log entry 5). -/
  history : List Event
  /-- The model's own: how many free values have been drawn (log entry 2). -/
  draws : Nat
deriving DecidableEq, Repr

/-- The machine right after reset (R230). The words of RK are unspecified there and hold 0 (DESIGN CHOICE, unsafe,
log entry 1); no host read returns them while KV = 0 (R33). The model's own fields are empty or 0 (DESIGN CHOICE,
log entries 2 to 5). -/
def State.reset : State where
  keyLo := 0
  keyHi := 0
  dinLo := 0
  dinHi := 0
  doutLo := 0
  doutHi := 0
  cksum := 0
  suffix := 0
  invalLo := 0
  invalHi := 0
  vv := 0
  kv0 := false
  kv1 := false
  rk0 := Vector.replicate 26 0
  rk1 := Vector.replicate 26 0
  err := false
  ecode := 0
  pend := none
  countdown := 0
  inputs := []
  history := []
  draws := 0

end Sys2Proof.Machine
end

