-- ==== Sys2Proof/Machine/Operands.lean ====
section
/-!
DEFINITION. Operand forms: the pseudocode primitives of 00_scope.md R8 to R13 (slices, concatenation, sign
extension, rotation, byte order) and the master key that a key source names (30_encoding.md R82).
-/

namespace Sys2Proof.Machine

/-- `v[31:0]`, the half-word A (R8). -/
def lowWord (v : Block) : Word := v.extractLsb' 0 32

/-- `v[63:32]`, the half-word B (R8). -/
def highWord (v : Block) : Word := v.extractLsb' 32 32

/-- `hi : lo` (R8). -/
def joinWords (hi lo : Word) : Block := hi ++ lo

/-- `byte_k(v) = v[63-8k:56-8k]`, for k = 0 to 7; byte 0 is the most significant (R13). -/
def byteAt (v : Block) (k : Nat) : Byte := v.extractLsb' (56 - 8 * k) 8

/-- The eight bytes of a block, most significant first (R13, R54). -/
def bytesOf (v : Block) : List Byte := (List.range 8).map (byteAt v)

/-- `sext_32(v8)` (R10): `v8` below 0x80, else `0xFFFFFF00 or v8`. -/
def sext32 (v : Byte) : Word := if v < 0x80#8 then 0#24 ++ v else 0xFFFFFF#24 ++ v

/-- `zext_32(v8)` (R10). -/
def zext32 (v : Byte) : Word := 0#24 ++ v

/-- The rotation amount of `y`: `y mod 32`, which is `y[4:0]` (R11). -/
def rotAmount (y : Word) : Nat := (y.extractLsb' 0 5).toNat

/-- `rotl32(x, y)` (R11). -/
def rotl32 (x y : Word) : Word :=
  if rotAmount y = 0 then x else (x <<< rotAmount y) ||| (x >>> (32 - rotAmount y))

/-- `rotr32(x, y)` (R11). -/
def rotr32 (x y : Word) : Word :=
  if rotAmount y = 0 then x else (x >>> rotAmount y) ||| (x <<< (32 - rotAmount y))

/-- NAME_KEY (R6). -/
def nameKey : Block := 0x7A21C951691CD470#64

/-- LICENSE_KEY, the decimal literal -5408575981733630035 modulo 2^64 (R6; 90_conflicts.md C2). -/
def licenseKey : Block := BitVec.ofInt 64 (-5408575981733630035)

/-- The master key a key source names (R82), chosen as KSETUP's pseudocode does (R110): the latched KEY for 0,
NAME_KEY for 1, LICENSE_KEY otherwise. KSRC = 3 never reaches a completion (R86). -/
def masterKey (ksrc : KeySource) (p : Latched) : Block :=
  match ksrc with
  | .key => p.key
  | .name => nameKey
  | .license => licenseKey
  | .reserved => licenseKey

/-- The commands that need KV[BANK] = 1 (R83, R200). -/
def needsKey : Instr → Bool
  | .nop _ => false
  | .ksetup _ => false
  | .enc _ => true
  | .dec _ => true
  | .ckclr _ => false
  | .foldb _ => false
  | .encfold _ => true
  | .licasm _ => true

end Sys2Proof.Machine
end

