-- ==== Sys2Proof/Machine/Flags.lean ====
section
/-!
DEFINITION. The status bits. CKCORE has no condition codes or arithmetic flags (10_state.md R38); its only flags are
the five fields of STATUS (R23), and no completion step of a cipher, fold or assembly command sets one.
-/

namespace Sys2Proof.Machine

/-- STATUS.BUSY: 1 exactly when PEND is not none (R34). -/
def busy (s : State) : Bool := s.pend.isSome

/-- The ECODE of an error (60_exceptions.md R201). -/
def errorCode : CmdError → BitVec 4
  | .illop => 1
  | .rsvd => 2
  | .nokey => 3
  | .ovr => 4

/-- The value a read of STATUS returns (R23): reserved bits 31:8, ECODE, ERR, KV1, KV0, BUSY. -/
def statusWord (s : State) : Word :=
  0#24 ++ s.ecode ++ BitVec.ofBool s.err ++ BitVec.ofBool s.kv1 ++ BitVec.ofBool s.kv0 ++ BitVec.ofBool (busy s)

/-- The constant ID register: "CK" and command-set version 1 (R22). -/
def idWord : Word := 0x434B0001#32

end Sys2Proof.Machine
end

