-- ==== Sys2Proof/Machine/Ops.lean ====
section
/-!
DEFINITION. The named operations over the registers, shared by the meanings of the commands and by the bus:
the 64-bit views, the banks, the latch, and raising and clearing a command error. CKCORE has no memory (20_memory.md
R50) and no trap entry (60_exceptions.md R209): `raiseError` is what its errors do in place of one.
-/

namespace Sys2Proof.Machine

/-- KEY_HI:KEY_LO (R25). -/
def keyBlock (s : State) : Block := joinWords s.keyHi s.keyLo

/-- DIN_HI:DIN_LO (R26). -/
def dinBlock (s : State) : Block := joinWords s.dinHi s.dinLo

/-- DOUT_HI:DOUT_LO (R27). -/
def doutBlock (s : State) : Block := joinWords s.doutHi s.doutLo

/-- INVAL_HI:INVAL_LO (R30). -/
def invalBlock (s : State) : Block := joinWords s.invalHi s.invalLo

/-- `DOUT_HI <- y[63:32]; DOUT_LO <- y[31:0]` (R130). -/
def writeDout (y : Block) (s : State) : State := { s with doutHi := highWord y, doutLo := lowWord y }

/-- `INVAL_HI <- iv[63:32]; INVAL_LO <- iv[31:0]` (R170). -/
def writeInval (iv : Block) (s : State) : State := { s with invalHi := highWord iv, invalLo := lowWord iv }

/-- CKSUM becomes `v` (R28). -/
def writeCksum (v : Word) (s : State) : State := { s with cksum := v }

/-- VV becomes `zext_32(v)` (R31, R170). -/
def writeVv (v : Byte) (s : State) : State := { s with vv := v }

/-- `KV[b]` (R33). -/
def bankValid (s : State) : Bank → Bool
  | .bank0 => s.kv0
  | .bank1 => s.kv1

/-- `RK[b]` (R32). -/
def bankKeys (s : State) : Bank → RoundKeys
  | .bank0 => s.rk0
  | .bank1 => s.rk1

/-- `KV[b] <- 1` (R110). -/
def setBankValid (b : Bank) (s : State) : State :=
  match b with
  | .bank0 => { s with kv0 := true }
  | .bank1 => { s with kv1 := true }

/-- All 26 words of `RK[b]` (R110). -/
def setBankKeys (b : Bank) (ks : RoundKeys) (s : State) : State :=
  match b with
  | .bank0 => { s with rk0 := ks }
  | .bank1 => { s with rk1 := ks }

/-- The operands acceptance captures: KEY, DIN and SUFFIX as they are now (R34, R200). -/
def captureOperands (s : State) : Latched where
  key := keyBlock s
  din := dinBlock s
  suffix := s.suffix

/-- The operands a completion uses (R100): those latched in PEND. With nothing pending, where no completion step is
enabled, they are those acceptance would latch now (DESIGN CHOICE, safe, log entry 7). -/
def latchedOperands (s : State) : Latched :=
  match s.pend with
  | some p => p.ops
  | none => captureOperands s

/-- `PEND <- none`, the end of every completion step (R100). -/
def retire (s : State) : State := { s with pend := none }

/-- `raise CmdError(c)` (R202): the first error since the last clear is kept in ERR and ECODE. Every refusal is also
added to the history, the monotone record R202 asks for. -/
def raiseError (c : CmdError) (s : State) : State :=
  if s.err then { s with history := .refused c :: s.history }
  else { s with err := true, ecode := errorCode c, history := .refused c :: s.history }

/-- The clearing of ERR and ECODE by a write of STATUS with bit 3 set (R23, R202). -/
def clearError (s : State) : State := { s with err := false, ecode := 0 }

end Sys2Proof.Machine
end

