-- ==== Sys2Proof/Machine/Bus.lean ====
section
/-!
DEFINITION. The host's side of the register window: the map of 10_state.md R21, reads and writes (20_memory.md R50 to
R58), command acceptance (60_exceptions.md R200 to R205), the platform's reset (70_reset_and_hazards.md R230), and
one step of the host.
-/

namespace Sys2Proof.Machine

/-- The registers of the window (R21). `reserved` stands for every offset the map marks so. -/
inductive Reg where
  | id
  | status
  | cmd
  | keyLo
  | keyHi
  | dinLo
  | dinHi
  | doutLo
  | doutHi
  | cksum
  | suffix
  | invalLo
  | invalHi
  | vv
  | rk (b : Bank) (k : Fin 26)
  | reserved
deriving DecidableEq, Repr

/-- The fixed locations from 0x000 to 0x038 (R21). -/
def regMap : List (Nat × Reg) :=
  [(0x000, .id), (0x004, .status), (0x008, .cmd), (0x010, .keyLo), (0x014, .keyHi), (0x018, .dinLo),
   (0x01C, .dinHi), (0x020, .doutLo), (0x024, .doutHi), (0x028, .cksum), (0x02C, .suffix), (0x030, .invalLo),
   (0x034, .invalHi), (0x038, .vv)]

/-- The register at a window offset that is a multiple of 4 (R21): RKb_k stands at 0x100 + 0x100 b + 4 k. -/
def regAt (off : Offset) : Reg :=
  let n := off.toNat
  if h : 0x100 ≤ n ∧ n < 0x168 then .rk .bank0 ⟨(n - 0x100) / 4, by omega⟩
  else if h : 0x200 ≤ n ∧ n < 0x268 then .rk .bank1 ⟨(n - 0x200) / 4, by omega⟩
  else (regMap.lookup n).getD .reserved

/-- CMD's offset (R24). -/
def cmdOffset : Offset := 0x008#12

/-- STATUS's offset (R23). -/
def statusOffset : Offset := 0x004#12

/-- A result register's value, or nothing where the read is free because a command is pending (R56). -/
def resultValue (s : State) (v : Word) : Option Word := if busy s then none else some v

/-- What a read of a register returns (R21 to R33, R53, R56), or nothing where it returns `draw()`: a result or RK
word while BUSY = 1, and an RK word of a bank whose KV is 0. -/
def readValue (s : State) : Reg → Option Word
  | .id => some idWord
  | .status => some (statusWord s)
  | .cmd => some 0
  | .keyLo => some s.keyLo
  | .keyHi => some s.keyHi
  | .dinLo => some s.dinLo
  | .dinHi => some s.dinHi
  | .doutLo => resultValue s s.doutLo
  | .doutHi => resultValue s s.doutHi
  | .cksum => resultValue s s.cksum
  | .suffix => some s.suffix
  | .invalLo => resultValue s s.invalLo
  | .invalHi => resultValue s s.invalHi
  | .vv => resultValue s (zext32 s.vv)
  | .rk b k => if bankValid s b then resultValue s (bankKeys s b)[k] else none
  | .reserved => some 0

/-- An access the window accepts: 32 bits wide at a multiple of 4 (R52). -/
def accessOk (off : Offset) (n : Nat) : Bool := n == 4 && off.toNat % 4 == 0

/-- The answer of a read goes into the history. A free read draws a fresh value (R12, R56; log entry 2). -/
def answerRead (off : Offset) (s : State) : Option Word → State
  | some v => { s with history := .readReturned off v :: s.history }
  | none => { s with history := .readReturned off (Config.draw s.draws) :: s.history, draws := s.draws + 1 }

/-- `MemRead(off, n)` (R52, R56). No read changes a register (R58). -/
def hostRead (off : Offset) (n : Nat) (s : State) : Host.Outcome State Fault Refusal :=
  if accessOk off n then .next (answerRead off s (readValue s (regAt off))) else .fault (.busError off n)

/-- Acceptance of a command that passed every check (R200): PEND takes the command and its operands, and how long it
waits is free (R245; log entry 3). -/
def latchCommand (i : Instr) (s : State) : State :=
  { s with pend := some { cmd := i, ops := captureOperands s }, countdown := Config.latency s.draws, draws := s.draws + 1 }

/-- A command write `w` (R200): busy first, then decoding, then the key state, in the priority of R203. -/
def accept (w : Word) (s : State) : State :=
  if busy s then raiseError .ovr s
  else
    match decode w with
    | .illegal c => raiseError c s
    | .cmd i => if needsKey i && !bankValid s i.fields.bank then raiseError .nokey s else latchCommand i s

/-- A write of `v` to STATUS: bit 3 clears ERR and ECODE, every other bit is ignored (R23). -/
def writeStatus (v : Word) (s : State) : State := if v.getLsbD 3 then clearError s else s

/-- A write of `v` to CKSUM: refused with OVR while BUSY = 1 (R57, R205). -/
def hostWriteCksum (v : Word) (s : State) : State := if busy s then raiseError .ovr s else writeCksum v s

/-- What a 32-bit write of `v` to a register does (R53, R57). -/
def writeReg (v : Word) (s : State) : Reg → State
  | .id => s
  | .status => writeStatus v s
  | .cmd => accept v s
  | .keyLo => { s with keyLo := v }
  | .keyHi => { s with keyHi := v }
  | .dinLo => { s with dinLo := v }
  | .dinHi => { s with dinHi := v }
  | .doutLo => s
  | .doutHi => s
  | .cksum => hostWriteCksum v s
  | .suffix => { s with suffix := v }
  | .invalLo => s
  | .invalHi => s
  | .vv => s
  | .rk _ _ => s
  | .reserved => s

/-- `MemWrite(off, n, v)` (R52, R57). -/
def hostWrite (off : Offset) (n : Nat) (v : Word) (s : State) : Host.Outcome State Fault Refusal :=
  if accessOk off n then .next (writeReg v s (regAt off)) else .fault (.busError off n)

/-- The reset event (R230, R231): the registers, KV, ERR, ECODE and PEND take their reset values, a pending command
is discarded. What the world outside still does, the history and the count of draws go on (log entry 12). -/
def hardwareReset (s : State) : State :=
  { State.reset with inputs := s.inputs, history := s.history, draws := s.draws }

/-- One poll of the host's `wait` loop (R90): a read of STATUS, and once more while its bit 0 is 1. -/
def pollStatus (s : State) : State :=
  let t := answerRead statusOffset s (readValue s .status)
  if (statusWord s).getLsbD 0 then { t with inputs := .wait :: t.inputs } else t

/-- The check that ends `run` (R90): a read of STATUS, after which the host's program goes on only if bit 3 is 0. Where
it is 1 the program ends there: of the actions to come only the platform's resets are left (DESIGN CHOICE, log
entry 14). -/
def requireNoError (s : State) : State :=
  let t := answerRead statusOffset s (readValue s .status)
  if (statusWord s).getLsbD 3 then { t with inputs := t.inputs.filter (· == .reset) } else t

/-- What one action from outside does. -/
def applyInput (s : State) : Input → Host.Outcome State Fault Refusal
  | .read off n => hostRead off n s
  | .write off n v => hostWrite off n v s
  | .wait => .next (pollStatus s)
  | .require => .next (requireNoError s)
  | .reset => .next (hardwareReset s)

/-- The host takes up an action, with `rest` to follow; a pending command has one step less to wait. -/
def takeInput (rest : List Input) (s : State) : State := { s with inputs := rest, countdown := s.countdown - 1 }

/-- One step of the host: its next action, if there is one (R20, R61). With no action and nothing pending the block
idles: its state does not change (log entry 4). -/
def hostStep (s : State) : Host.Outcome State Fault Refusal :=
  match s.inputs with
  | [] => .next s
  | a :: rest => applyInput (takeInput rest s) a

/-- Whose turn it is while a command is pending: the sequencer's once the command has waited its latency, or when the
host has nothing more to do (R100, R242; log entry 3). -/
def sequencerTurn (s : State) : Bool := s.countdown == 0 || s.inputs.isEmpty

/-- The place from which the next step takes its command (log entry 8): the command word `w`, taken up as acceptance
takes it up (R200), with no wait left and, for a command that reads a bank, that bank valid. A word that acceptance
refuses is instead the next thing the host writes to CMD. -/
def placeCommand (w : Word) (s : State) : State :=
  match decode w with
  | .cmd i =>
    { (if needsKey i then setBankValid i.fields.bank s else s) with
      pend := some { cmd := i, ops := captureOperands s }, countdown := 0 }
  | .illegal _ => { s with pend := none, inputs := .write cmdOffset 4 w :: s.inputs }

/-- The window offset of an address of the host, if it lies in the window (R51). -/
def windowOffset (addr : Nat) : Option Offset :=
  if Config.ckBase ≤ addr ∧ addr < Config.ckBase + 4096 then some (BitVec.ofNat 12 (addr - Config.ckBase)) else none

end Sys2Proof.Machine
end

