-- ==== Sys2Proof/Machine/BlockCipher.lean ====
section
/-!
DEFINITION. The block cipher, ENC and DEC (42_block_cipher.md R130 to R135).
-/

namespace Sys2Proof.Machine

/-- `S[k]`, for k below 26 (R12, R132). The rules use no other index, so the default is never read. -/
def keyWord (ks : RoundKeys) (k : Nat) : Word := ks[k]?.getD 0

/-- The two half-words during the rounds, no architectural state (R35). -/
structure Halves where
  a : Word
  b : Word
deriving DecidableEq, Repr

/-- Round `r` of encryption (R132): the second half uses the `a` just computed. -/
def encRound (ks : RoundKeys) (r : Nat) (h : Halves) : Halves :=
  let a := rotl32 (h.a ^^^ h.b) h.b + keyWord ks (2 * r)
  let b := rotl32 (h.b ^^^ a) a + keyWord ks (2 * r + 1)
  { a := a, b := b }

/-- Rounds 1 to `n`, in rising order (R132). -/
def encRounds (ks : RoundKeys) : Nat → Halves → Halves
  | 0, h => h
  | n + 1, h => encRound ks (n + 1) (encRounds ks n h)

/-- `Encrypt(S, x)` (R132): whitening by S[0] and S[1], then 12 rounds, then `b : a`. -/
def encrypt (ks : RoundKeys) (x : Block) : Block :=
  let h := encRounds ks 12 { a := lowWord x + keyWord ks 0, b := highWord x + keyWord ks 1 }
  joinWords h.b h.a

/-- Round `r` of decryption (R133): the second half uses the `b` just computed. -/
def decRound (ks : RoundKeys) (r : Nat) (h : Halves) : Halves :=
  let b := rotr32 (h.b - keyWord ks (2 * r + 1)) h.a ^^^ h.a
  let a := rotr32 (h.a - keyWord ks (2 * r)) b ^^^ b
  { a := a, b := b }

/-- Rounds `n` down to 1 (R133). -/
def decRounds (ks : RoundKeys) : Nat → Halves → Halves
  | 0, h => h
  | n + 1, h => decRounds ks n (decRound ks (n + 1) h)

/-- `Decrypt(S, x)` (R133): no whitening first, 12 rounds downwards, then S[1] and S[0] subtracted. -/
def decrypt (ks : RoundKeys) (x : Block) : Block :=
  let h := decRounds ks 12 { a := lowWord x, b := highWord x }
  joinWords (h.b - keyWord ks 1) (h.a - keyWord ks 0)

/-- ENC: DOUT becomes the encryption of the latched DIN under the bank (R130). -/
def execEnc (f : Fields) (s : State) : Host.Outcome State Fault Refusal :=
  .next (retire (writeDout (encrypt (bankKeys s f.bank) (latchedOperands s).din) s))

/-- DEC: DOUT becomes the decryption of the latched DIN under the bank (R131). -/
def execDec (f : Fields) (s : State) : Host.Outcome State Fault Refusal :=
  .next (retire (writeDout (decrypt (bankKeys s f.bank) (latchedOperands s).din) s))

end Sys2Proof.Machine
end

