-- ==== Sys2Proof/Machine/Checksum.lean ====
section
/-!
DEFINITION. The checksum accumulator: CKCLR, FOLDB and ENCFOLD (43_checksum.md R150 to R153).
-/

namespace Sys2Proof.Machine

/-- `Fold(n, v8)` (R150): XOR with the sign-extended byte, then a rotation by 3 bits left. -/
def fold (n : Word) (v : Byte) : Word := rotl32 (n ^^^ sext32 v) 3

/-- The fold of a byte stream, in stream order (R153). -/
def foldBytes (n : Word) (vs : List Byte) : Word := vs.foldl fold n

/-- CKCLR: `CKSUM <- 0` (R151). -/
def execCkclr (_f : Fields) (s : State) : Host.Outcome State Fault Refusal := .next (retire (writeCksum 0 s))

/-- FOLDB: `CKSUM <- Fold(CKSUM, IMM8)` (R152). -/
def execFoldb (f : Fields) (s : State) : Host.Outcome State Fault Refusal :=
  .next (retire (writeCksum (fold s.cksum f.imm8) s))

/-- ENCFOLD: DOUT becomes the encryption `y` of the latched DIN under the bank, and the eight bytes of `y`, most
significant first, are folded into CKSUM (R153). -/
def execEncfold (f : Fields) (s : State) : Host.Outcome State Fault Refusal :=
  let y := encrypt (bankKeys s f.bank) (latchedOperands s).din
  .next (retire (writeCksum (foldBytes s.cksum (bytesOf y)) (writeDout y s)))

end Sys2Proof.Machine
end

