-- ==== Sys2Proof/Machine/Control.lean ====
section
/-!
DEFINITION. The meaning of NOP (40_control.md R101). A meaning is the whole completion step of its command (R100):
the command's effect, then `PEND <- none`.
-/

namespace Sys2Proof.Machine

/-- NOP: no effect but its own completion (R100, R101). -/
def execNop (_f : Fields) (s : State) : Host.Outcome State Fault Refusal := .next (retire s)

end Sys2Proof.Machine
end

