-- ==== Sys2Proof/Machine/KeySchedule.lean ====
section
/-!
DEFINITION. The key schedule and KSETUP (41_key_schedule.md R110 to R115).
-/

namespace Sys2Proof.Machine

/-- P, round-key word 0, the literal -1209970333 modulo 2^32 (R6, R112). -/
def firstKeyWord : Word := BitVec.ofInt 32 (-1209970333)

/-- Q, the round-key increment, the literal -1640531527 modulo 2^32 (R6, R112). -/
def keyIncrement : Word := BitVec.ofInt 32 (-1640531527)

/-- `S[0] = P` and `S[t] = S[t-1] + Q` (R112). -/
def initialWord : Nat → Word
  | 0 => firstKeyWord
  | t + 1 => initialWord t + keyIncrement

/-- The 26 initial round-key words (R112). -/
def initialWords : RoundKeys := Vector.ofFn fun t => initialWord t.val

/-- The working values of the mixing pass, no architectural state (R35, R113): S, L, a, b, i and j. The indices
advance modulo 26 and modulo 2 by their types. -/
structure Mix where
  s : RoundKeys
  l : Vector Word 2
  a : Word
  b : Word
  i : Fin 26
  j : Fin 2
deriving DecidableEq, Repr

/-- The start of the mixing pass of key `k`: L[0] = k[31:0], L[1] = k[63:32] (R111, R113, R114). -/
def mixStart (k : Block) : Mix where
  s := initialWords
  l := #v[lowWord k, highWord k]
  a := 0
  b := 0
  i := 0
  j := 0

/-- One iteration (R113): the new S[i] is the `a` that L[j] uses, and the amount of L[j]'s rotation is `a + b`. -/
def mixStep (m : Mix) : Mix :=
  let a := rotl32 (m.s[m.i] + m.a + m.b) 3
  let b := rotl32 (m.l[m.j] + a + m.b) (a + m.b)
  { s := m.s.set m.i a, l := m.l.set m.j b, a := a, b := b, i := m.i + 1, j := m.j + 1 }

/-- `n` iterations, the first one first (R113). -/
def mixPass : Nat → Mix → Mix
  | 0, m => m
  | n + 1, m => mixPass n (mixStep m)

/-- `KeySchedule(k)`: 3 * 26 = 78 iterations, then S (R113, R114). -/
def keySchedule (k : Block) : RoundKeys := (mixPass 78 (mixStart k)).s

/-- KSETUP: `RK[bank] <- KeySchedule(k)` and `KV[bank] <- 1`, for the key `k` that KSRC names (R110). -/
def execKsetup (f : Fields) (s : State) : Host.Outcome State Fault Refusal :=
  .next (retire (setBankValid f.bank (setBankKeys f.bank (keySchedule (masterKey f.ksrc (latchedOperands s))) s)))

end Sys2Proof.Machine
end

