-- ==== Sys2Proof/Machine/License.lean ====
section
/-!
DEFINITION. The license assembler LICASM (44_license.md R170 to R174).
-/

namespace Sys2Proof.Machine

/-- PREFIX_MASK (R6, R172). -/
def prefixMask : Word := 0x54882F8A#32

/-- The prefix of the candidate: the checksum XOR the mask (R172). -/
def candidatePrefix (n : Word) : Word := n ^^^ prefixMask

/-- The sentinel high-words (R6, R171). -/
def sentinels : List (BitVec 16) := [0x0401#16, 0x0402#16, 0x0403#16]

/-- `LowWord(s)` (R171): the suffix itself under a sentinel high-word, else its low 24 bits under the byte 0x01. -/
def candidateLow (suffix : Word) : Word :=
  if suffix.extractLsb' 16 16 ∈ sentinels then suffix else 0x01000000#32 ||| (0#8 ++ suffix.extractLsb' 0 24)

/-- `in_val = prefix : low` (R170). -/
def candidate (n suffix : Word) : Block := joinWords (candidatePrefix n) (candidateLow suffix)

/-- `Abs8(x8)`: the 8-bit absolute value, with 0x80 its own negation (R173). -/
def abs8 (x : Byte) : Byte := if x < 0x80#8 then x else 0#8 - x

/-- `XorFold8(iv)`: the plain XOR of the eight bytes, with no rotation (R174; 90_conflicts.md C4). -/
def xorFold8 (iv : Block) : Byte := (bytesOf iv).foldl (· ^^^ ·) 0

/-- LICASM: INVAL becomes the candidate of CKSUM and the latched SUFFIX, DOUT its decryption under the bank, and VV
the absolute value of the candidate's XOR fold (R170). CKSUM is read directly, not through the latch (R34). -/
def execLicasm (f : Fields) (s : State) : Host.Outcome State Fault Refusal :=
  let iv := candidate s.cksum (latchedOperands s).suffix
  .next (retire (writeVv (abs8 (xorFold8 iv)) (writeDout (decrypt (bankKeys s f.bank) iv) (writeInval iv s))))

end Sys2Proof.Machine
end

