-- ==== Sys2Proof/Machine/Dispatch.lean ====
section
/-! DEFINITION. The completion step of each command (40_control.md R100): one arm per constructor of `Instr`. -/

namespace Sys2Proof.Machine

def exec (i : Instr) (s : State) : Host.Outcome State Fault Refusal :=
  match i with
  | .nop f => Sys2Proof.Machine.execNop f s
  | .ksetup f => Sys2Proof.Machine.execKsetup f s
  | .enc f => Sys2Proof.Machine.execEnc f s
  | .dec f => Sys2Proof.Machine.execDec f s
  | .ckclr f => Sys2Proof.Machine.execCkclr f s
  | .foldb f => Sys2Proof.Machine.execFoldb f s
  | .encfold f => Sys2Proof.Machine.execEncfold f s
  | .licasm f => Sys2Proof.Machine.execLicasm f s

end Sys2Proof.Machine
end

