-- ==== Sys2Proof/Machine/Step.lean ====
section
/-!
DEFINITION. One step of the machine: either the core sequencer completes the pending command or the host takes its
next action (10_state.md R20, 40_control.md R100).
-/

namespace Sys2Proof.Machine

/-- The sequencer's step is enabled exactly when PEND is not none (R100); when it is not taken, the host's is. -/
def step (s : State) : Host.Outcome State Fault Refusal :=
  match s.pend with
  | none => hostStep s
  | some p => if sequencerTurn s then exec p.cmd s else hostStep s

/-- The state whose next step runs the command of an opcode-table row's bits (log entry 8). -/
def State.withFetchWord (s : State) (nbits w : Nat) : State := placeCommand (BitVec.ofNat 32 (w % 2 ^ nbits)) s

end Sys2Proof.Machine
end

