-- ==== Sys2Proof/Machine/Derive.lean ====
section
/-!
DEFINITION. The host's side of a derivation (44_license.md R175 to R182; 30_encoding.md R90): padding, block order,
suffix policy, text formatting, the result they give, and the bus actions that make CKCORE compute it. Nothing of
the machine uses this file: it is the replaceable host procedure that 92_eei_decisions.md D22 asks a model to keep
apart.
-/

namespace Sys2Proof.Machine

/-- `UTF8(name)` (R175). A Lean string is always a valid sequence of characters, so the malformed names of R182 are
refused before this point (log entry 11). -/
def utf8Bytes (name : String) : List Byte := (name.toList.flatMap String.utf8EncodeChar).map (·.toBitVec)

/-- `be32(v)`: four bytes, most significant first (R54, R176). -/
def be32 (v : Word) : List Byte := [v.extractLsb' 24 8, v.extractLsb' 16 8, v.extractLsb' 8 8, v.extractLsb' 0 8]

/-- The padded length: `max(8, 8 * ceil((4 + len) / 8))` (R176; 90_conflicts.md C7). -/
def paddedLength (len : Nat) : Nat := max 8 (8 * ((4 + len + 7) / 8))

/-- `Pad(m)`: the length field, the name's bytes, zeros (R176). -/
def padName (m : List Byte) : List Byte :=
  be32 (BitVec.ofNat 32 m.length) ++ m ++ List.replicate (paddedLength m.length - 4 - m.length) 0

/-- `be64(pm[8q .. 8q+7])`: the first byte lands in bits 63:56 (R175, R177). -/
def blockAt (pm : List Byte) (q : Nat) : Block :=
  let byte := fun k => pm.getD (8 * q + k) 0
  byte 0 ++ byte 1 ++ byte 2 ++ byte 3 ++ byte 4 ++ byte 5 ++ byte 6 ++ byte 7

/-- The blocks of a padded message, in order (R177). -/
def blocksOf (pm : List Byte) : List Block := (List.range (pm.length / 8)).map (blockAt pm)

/-- The two suffix policies (R179). -/
inductive SuffixPolicy where
  /-- Policy (a): the `n`-th pseudo-random 31-bit value. -/
  | random (n : Nat)
  /-- Policy (b): a fixed literal. -/
  | fixed (v : Word)
deriving DecidableEq, Repr

/-- The suffix a policy supplies; a random one has bit 31 = 0 (R179; U10). -/
def suffixOf : SuffixPolicy → Word
  | .random n => 0#1 ++ Config.suffixDraw n
  | .fixed v => v

/-- One lowercase hexadecimal digit (R180). -/
def hexDigit (d : BitVec 4) : Char :=
  ['0', '1', '2', '3', '4', '5', '6', '7', '8', '9', 'a', 'b', 'c', 'd', 'e', 'f'].getD d.toNat '0'

/-- `Hex2(v)`: two digits, most significant first (R180). -/
def hex2 (v : Byte) : List Char := [hexDigit (v.extractLsb' 4 4), hexDigit (v.extractLsb' 0 4)]

/-- `Hex16(out)`: sixteen digits, most significant first, with leading zeros (R180). -/
def hex16 (out : Block) : List Char := (List.range 16).map fun k => hexDigit (out.extractLsb' (60 - 4 * k) 4)

/-- The ciphertext bytes of the padded name's blocks under NAME_KEY, in sequence (R16, R177). -/
def cipherStream (m : List Byte) : List Byte :=
  (blocksOf (padName m)).flatMap fun x => bytesOf (encrypt (keySchedule nameKey) x)

/-- The candidate of a name's bytes and a suffix (R172, R175). -/
def derivedCandidate (m : List Byte) (suffix : Word) : Block := candidate (foldBytes 0 (cipherStream m)) suffix

/-- The result of a derivation as a function of its inputs: 18 characters, vv and then out (R175, R180). That the host's
program computes it on the machine is the law `derive_runs` of Laws/Derive.lean. -/
def deriveChars (m : List Byte) (suffix : Word) : List Char :=
  let iv := derivedCandidate m suffix
  hex2 (abs8 (xorFold8 iv)) ++ hex16 (decrypt (keySchedule licenseKey) iv)

/-- `derive(name)` (R175): none for a name longer than the host accepts (R7, NAME_MAX). -/
def derive (name : String) (policy : SuffixPolicy) : Option String :=
  let m := utf8Bytes name
  if m.length ≤ Config.nameMax.toNat then some (String.ofList (deriveChars m (suffixOf policy))) else none

/-- The operand fields the assembler emits: 0 in every ignored field (R89). -/
def plainFields (b : Bank) : Fields := { bank := b, ksrc := .key, imm8 := 0 }

/-- `off(REG)`: the window offset of a register (R21, R90). `reserved` is no name a program has; its first offset stands
for it. -/
def offsetOf : Reg → Offset
  | .id => 0x000#12
  | .status => statusOffset
  | .cmd => cmdOffset
  | .keyLo => 0x010#12
  | .keyHi => 0x014#12
  | .dinLo => 0x018#12
  | .dinHi => 0x01C#12
  | .doutLo => 0x020#12
  | .doutHi => 0x024#12
  | .cksum => 0x028#12
  | .suffix => 0x02C#12
  | .invalLo => 0x030#12
  | .invalHi => 0x034#12
  | .vv => 0x038#12
  | .rk .bank0 k => BitVec.ofNat 12 (0x100 + 4 * k.val)
  | .rk .bank1 k => BitVec.ofNat 12 (0x200 + 4 * k.val)
  | .reserved => 0x00C#12

/-- `wr REG, v` (R90). -/
def wrInput (r : Reg) (v : Word) : Input := .write (offsetOf r) 4 v

/-- `rd REG` (R90). -/
def rdInput (r : Reg) : Input := .read (offsetOf r) 4

/-- `issue CMD` (R90). -/
def issueInput (i : Instr) : Input := wrInput .cmd (encode i)

/-- `run CMD` (R90): issue, wait, then read STATUS and require ERR = 0. -/
def runInputs (i : Instr) : List Input := [issueInput i, .wait, .require]

/-- The register pairs that hold a 64-bit value (R25, R26, R27, R30). -/
inductive RegPair where
  | key
  | din
  | dout
  | inval
deriving DecidableEq, Repr

/-- `REG_HI` of a pair (R90). -/
def pairHi : RegPair → Reg
  | .key => .keyHi
  | .din => .dinHi
  | .dout => .doutHi
  | .inval => .invalHi

/-- `REG_LO` of a pair (R90). -/
def pairLo : RegPair → Reg
  | .key => .keyLo
  | .din => .dinLo
  | .dout => .doutLo
  | .inval => .invalLo

/-- `wr64 REG, v` (R90): the high half first. -/
def wr64Inputs (p : RegPair) (v : Block) : List Input := [wrInput (pairHi p) (highWord v), wrInput (pairLo p) (lowWord v)]

/-- `rd64 REG` (R90): the high half first. -/
def rd64Inputs (p : RegPair) : List Input := [rdInput (pairHi p), rdInput (pairLo p)]

/-- The host variable of `rd REG -> t` (R90): the answer of the latest action, if that was a read of the register, and
the history before it. -/
def rdValue (r : Reg) : List Event → Option (Word × List Event)
  | .readReturned off v :: h => if off = offsetOf r then some (v, h) else none
  | _ => none

/-- The host variable of `rd64 REG -> t` (R90): `h : l`, the low half being read last. -/
def rd64Value (p : RegPair) (h : List Event) : Option (Block × List Event) :=
  match rdValue (pairLo p) h with
  | none => none
  | some (lo, h) =>
    match rdValue (pairHi p) h with
    | none => none
    | some (hi, h) => some (joinWords hi lo, h)

/-- One turn of the block loop: `wr64 DIN` and `run ENCFOLD 0` (R175, R177). -/
def blockInputs (x : Block) : List Input := wr64Inputs .din x ++ runInputs (.encfold (plainFields .bank0))

/-- DERIVE as the host's bus actions (R175): both KSETUPs, CKCLR, the block loop, SUFFIX, LICASM, and the reads of
VV and DOUT. -/
def deriveInputs (m : List Byte) (suffix : Word) : List Input :=
  runInputs (.ksetup { plainFields .bank0 with ksrc := .name }) ++
  runInputs (.ksetup { plainFields .bank1 with ksrc := .license }) ++
  runInputs (.ckclr (plainFields .bank0)) ++
  (blocksOf (padName m)).flatMap blockInputs ++
  [wrInput .suffix suffix] ++
  runInputs (.licasm (plainFields .bank1)) ++
  [rdInput .vv] ++ rd64Inputs .dout

/-- What DERIVE returns, from the values it read (R175): `Hex2(v[7:0]) ++ Hex16(out)`, for the v and out of its last
three reads. None where the program has not come to its end, as after a failed `require`. -/
def derivedText (h : List Event) : Option (List Char) :=
  match rd64Value .dout h with
  | none => none
  | some (out, h) =>
    match rdValue .vv h with
    | none => none
    | some (v, _) => some (hex2 (v.extractLsb' 0 8) ++ hex16 out)

end Sys2Proof.Machine
end

