-- ==== Sys2Proof/Safety.lean ====
section
/-!
DEFINITION. The terms claims are stated in: the invariant of the machine, and which inputs neither fault nor reset.
-/

namespace Sys2Proof.Machine

/-- What every step keeps: STATUS holds a legal error code (10_state.md R23), PEND holds a command that acceptance
lets through (60_exceptions.md R200, 40_control.md R100), and VV is in its range (R31). -/
structure StateInv (s : State) : Prop where
  /-- ECODE is 0 when ERR = 0 (R23). -/
  noError : s.err = false → s.ecode = 0
  /-- ECODE is 1, 2, 3 or 4 when ERR = 1 (R23, R201). -/
  someError : s.err = true → 1 ≤ s.ecode.toNat ∧ s.ecode.toNat ≤ 4
  /-- A pending command is well-formed (R86, R200). -/
  pendWellFormed : ∀ p, s.pend = some p → p.cmd.wellFormed = true
  /-- A pending command that reads a bank reads a keyed one (R200, R243). -/
  pendKeyed : ∀ p, s.pend = some p → needsKey p.cmd = true → bankValid s p.cmd.fields.bank = true
  /-- VV is 0x00 to 0x80 (R31, R173). -/
  vvRange : s.vv.toNat ≤ 0x80

/-- An action that the window takes without a fault and that is no reset (20_memory.md R52). -/
def plainInput : Input → Bool
  | .read off n => accessOk off n
  | .write off n _ => accessOk off n
  | .wait => true
  | .require => true
  | .reset => false

/-- No command was refused so far: the premise R202 asks a model to offer. -/
def NoRefusal (s : State) : Prop := ∀ c, Event.refused c ∉ s.history

/-- `n` steps, stopping at the first fault or refusal. -/
def runSteps : Nat → State → Host.Outcome State Fault Refusal
  | 0, s => .next s
  | n + 1, s =>
    match step s with
    | .next t => runSteps n t
    | .fault r => .fault r
    | .refused r => .refused r

/-- The bits of a command word that make it RSVD (60_exceptions.md R201): w[15:11], w[31:24], or KSETUP with
KSRC = 3. -/
def rsvdBits (w : Word) : Bool :=
  w.extractLsb' 11 5 != 0#5 || w.extractLsb' 24 8 != 0#8 || (w.extractLsb' 0 8 == 1#8 && w.extractLsb' 9 2 == 3#2)

/-- KV of the bank that bit 8 of a command word selects (R82, R200). -/
def keyBit (w : Word) (s : State) : Bool := if w.getLsbD 8 then s.kv1 else s.kv0

/-- The state after acceptance of command `i` (R200): PEND holds it with the operands as they are now, and nothing
else of R20's record changes. How long it waits is open (R245). -/
def Accepted (i : Instr) (s t : State) : Prop :=
  ∃ k n, t = { s with
    pend := some { cmd := i, ops := { key := s.keyHi ++ s.keyLo, din := s.dinHi ++ s.dinLo, suffix := s.suffix } },
    countdown := k, draws := n }

/-- The acceptance of a command word whose OP is `op`, for an opcode of the map (R200, R201): OVR if BUSY = 1, then
RSVD if a reserved bit is set, then NOKEY if the command needs its bank's KV and it is 0, else the word's command
is accepted. -/
def AcceptanceErrors (op : Byte) (needsKv : Bool) : Prop :=
  ∀ (w : Word) (s : State), w.extractLsb' 0 8 = op →
    if s.pend.isSome then accept w s = raiseError .ovr s
    else if rsvdBits w then accept w s = raiseError .rsvd s
    else if needsKv && !keyBit w s then accept w s = raiseError .nokey s
    else ∃ i, encode i = w ∧ i.op = op ∧ Accepted i s (accept w s)

/-- A state in which a read's answer `v` has been recorded and nothing else has changed. -/
def Answered (off : Offset) (v : Word) (s : State) : State := { s with history := .readReturned off v :: s.history }

/-- A state in which a read has been answered by a fresh free value and nothing else has changed. -/
def AnsweredFreely (off : Offset) (s : State) : State :=
  { s with history := .readReturned off (Config.draw s.draws) :: s.history, draws := s.draws + 1 }

end Sys2Proof.Machine
end

