-- ==== Sys2Proof/Certificates/Slice0/Obligations.lean ====
section
/-!
DEFINITION. The statements for the provers: what the numbered rules of spec/ say the machine does. A statement whose
docstring names a log entry rests on a choice of this model and not on a rule.
-/

open Sys2Proof Sys2Proof.Machine

/-! ## Reset -/

/-- R230: the values after reset, both of the machine's first state and after every reset event. The RK words are
unspecified: a read of one returns a free value. -/
def Obligations.ResetValues : Prop :=
  (∀ s : State, ∃ t, applyInput s .reset = .next t) ∧
  ∀ s t : State, (t = State.reset ∨ applyInput s .reset = .next t) →
    hostRead 0x000#12 4 t = .next (Answered 0x000#12 0x434B0001#32 t) ∧
    t.pend = none ∧ (statusWord t).getLsbD 0 = false ∧ t.kv0 = false ∧ t.kv1 = false ∧ t.err = false ∧ t.ecode = 0 ∧
    t.keyLo = 0 ∧ t.keyHi = 0 ∧ t.dinLo = 0 ∧ t.dinHi = 0 ∧ t.doutLo = 0 ∧ t.doutHi = 0 ∧ t.cksum = 0 ∧
    t.suffix = 0 ∧ t.invalLo = 0 ∧ t.invalHi = 0 ∧ hostRead 0x038#12 4 t = .next (Answered 0x038#12 0 t) ∧
    (∀ k : Fin 26,
      hostRead (BitVec.ofNat 12 (0x100 + 4 * k.val)) 4 t =
        .next (AnsweredFreely (BitVec.ofNat 12 (0x100 + 4 * k.val)) t) ∧
      hostRead (BitVec.ofNat 12 (0x200 + 4 * k.val)) 4 t =
        .next (AnsweredFreely (BitVec.ofNat 12 (0x200 + 4 * k.val)) t))

/-- R231 (an inference the spec marks as derived from R230), as one step of the machine: a reset that comes before the
completion discards the pending command, which writes none of its results. Which of the two comes first is free
(log entry 3). -/
def Obligations.ResetDiscardsPending : Prop :=
  ∀ (s : State) (p : Pending) (rest : List Input),
    s.pend = some p → s.inputs = .reset :: rest → sequencerTurn s = false →
    ∃ t, step s = .next t ∧ t.pend = none ∧ t.inputs = rest ∧ t.doutHi = 0 ∧ t.doutLo = 0 ∧ t.invalHi = 0 ∧
      t.invalLo = 0 ∧ t.vv = 0 ∧ t.cksum = 0 ∧ t.kv0 = false ∧ t.kv1 = false

/-! ## The register window -/

/-- R22: ID reads 0x434B0001 in every state, and a write to it has no effect. -/
def Obligations.IdReadsItsConstant : Prop :=
  ∀ (s : State) (v : Word),
    hostRead 0x000#12 4 s = .next (Answered 0x000#12 0x434B0001#32 s) ∧ hostWrite 0x000#12 4 v s = .next s ∧
    (0x434B0001#32).extractLsb' 16 16 = 0x434B#16 ∧ (0x434B0001#32).extractLsb' 0 16 = 0x0001#16

/-- R23: the fields of STATUS, their legal values, and what a write does, whether BUSY is 0 or 1. -/
def Obligations.StatusFields : Prop :=
  (∀ s : State, hostRead 0x004#12 4 s = .next (Answered 0x004#12 (statusWord s) s)) ∧
  (∀ s : State,
    (statusWord s).getLsbD 0 = s.pend.isSome ∧ (statusWord s).getLsbD 1 = s.kv0 ∧
    (statusWord s).getLsbD 2 = s.kv1 ∧ (statusWord s).getLsbD 3 = s.err ∧
    (statusWord s).extractLsb' 4 4 = s.ecode ∧ (statusWord s).extractLsb' 8 24 = 0) ∧
  (∀ s : State, StateInv s →
    ((statusWord s).extractLsb' 4 4).toNat ≤ 4 ∧
    ((statusWord s).getLsbD 3 = false → (statusWord s).extractLsb' 4 4 = 0)) ∧
  statusWord State.reset = 0 ∧
  (∀ (s : State) (v : Word),
    hostWrite 0x004#12 4 v s = .next (if v.getLsbD 3 then { s with err := false, ecode := 0 } else s))

/-- R57: what a 32-bit write does at every aligned offset of the window, whatever BUSY is unless stated. -/
def Obligations.HostWriteEffects : Prop :=
  ∀ (off : Offset) (v : Word) (s : State), off.toNat % 4 = 0 →
    hostWrite off 4 v s = .next
      (if off = 0x010#12 then { s with keyLo := v }
       else if off = 0x014#12 then { s with keyHi := v }
       else if off = 0x018#12 then { s with dinLo := v }
       else if off = 0x01C#12 then { s with dinHi := v }
       else if off = 0x02C#12 then { s with suffix := v }
       else if off = 0x028#12 then (if s.pend.isSome then raiseError .ovr s else { s with cksum := v })
       else if off = 0x004#12 then (if v.getLsbD 3 then { s with err := false, ecode := 0 } else s)
       else if off = 0x008#12 then accept v s
       else s)

/-- R53: reserved offsets read 0 and ignore writes, CMD reads 0, and read-only registers ignore writes, all without
an error. -/
def Obligations.ReservedAndReadOnlyOffsets : Prop :=
  ∀ (off : Offset) (v : Word) (s : State), off.toNat % 4 = 0 →
    ((off.toNat = 0x00C ∨ (0x03C ≤ off.toNat ∧ off.toNat ≤ 0x0FC) ∨ (0x168 ≤ off.toNat ∧ off.toNat ≤ 0x1FC) ∨
        0x268 ≤ off.toNat) →
      hostRead off 4 s = .next (Answered off 0 s) ∧ hostWrite off 4 v s = .next s) ∧
    hostRead 0x008#12 4 s = .next (Answered 0x008#12 0 s) ∧
    ((off.toNat ∈ [0x000, 0x020, 0x024, 0x030, 0x034, 0x038] ∨ (0x100 ≤ off.toNat ∧ off.toNat ≤ 0x164) ∨
        (0x200 ≤ off.toNat ∧ off.toNat ≤ 0x264)) →
      hostWrite off 4 v s = .next s)

/-- R56: what a 32-bit read returns, for every register: the current value, or a free value for the result registers
and RK words while BUSY = 1 and for the RK words of a bank whose KV is 0. -/
def Obligations.HostReadValues : Prop :=
  ∀ s : State,
    hostRead 0x000#12 4 s = .next (Answered 0x000#12 0x434B0001#32 s) ∧
    hostRead 0x004#12 4 s = .next (Answered 0x004#12 (statusWord s) s) ∧
    hostRead 0x010#12 4 s = .next (Answered 0x010#12 s.keyLo s) ∧
    hostRead 0x014#12 4 s = .next (Answered 0x014#12 s.keyHi s) ∧
    hostRead 0x018#12 4 s = .next (Answered 0x018#12 s.dinLo s) ∧
    hostRead 0x01C#12 4 s = .next (Answered 0x01C#12 s.dinHi s) ∧
    hostRead 0x02C#12 4 s = .next (Answered 0x02C#12 s.suffix s) ∧
    (∀ q ∈ [(0x020#12, s.doutLo), (0x024#12, s.doutHi), (0x028#12, s.cksum), (0x030#12, s.invalLo),
        (0x034#12, s.invalHi), (0x038#12, s.vv.setWidth 32)],
      hostRead q.1 4 s = .next (if s.pend.isSome then AnsweredFreely q.1 s else Answered q.1 q.2 s)) ∧
    (∀ k : Fin 26,
      hostRead (BitVec.ofNat 12 (0x100 + 4 * k.val)) 4 s = .next
        (if s.pend.isSome || !s.kv0 then AnsweredFreely (BitVec.ofNat 12 (0x100 + 4 * k.val)) s
         else Answered (BitVec.ofNat 12 (0x100 + 4 * k.val)) s.rk0[k] s) ∧
      hostRead (BitVec.ofNat 12 (0x200 + 4 * k.val)) 4 s = .next
        (if s.pend.isSome || !s.kv1 then AnsweredFreely (BitVec.ofNat 12 (0x200 + 4 * k.val)) s
         else Answered (BitVec.ofNat 12 (0x200 + 4 * k.val)) s.rk1[k] s))

/-- R52: an access that is not 32 bits wide at a multiple of 4 is refused with a bus error, which carries no state on;
every other access answers a next state. -/
def Obligations.BadAccessIsBusError : Prop :=
  ∀ (off : Offset) (n : Nat) (v : Word) (s : State),
    ((n ≠ 4 ∨ off.toNat % 4 ≠ 0) →
      hostRead off n s = .fault (.busError off n) ∧ hostWrite off n v s = .fault (.busError off n)) ∧
    ((n = 4 ∧ off.toNat % 4 = 0) → (∃ t, hostRead off n s = .next t) ∧ ∃ t, hostWrite off n v s = .next t)

/-- R206: over every state, a step answers a next state, or the bus error of a bad access that the host makes. No
command's completion faults. -/
def Obligations.OnlyFaultIsBusError : Prop :=
  ∀ s : State,
    (∃ t, step s = .next t) ∨
    ∃ (off : Offset) (n : Nat) (rest : List Input),
      step s = .fault (.busError off n) ∧ (n ≠ 4 ∨ off.toNat % 4 ≠ 0) ∧
      (s.inputs = .read off n :: rest ∨ ∃ v, s.inputs = .write off n v :: rest)

/-- R58: a read changes no register, so every register reads the same afterwards. -/
def Obligations.ReadsHaveNoSideEffect : Prop :=
  ∀ (off : Offset) (n : Nat) (s t : State), hostRead off n s = .next t →
    t = { s with history := t.history, draws := t.draws } ∧ ∀ r : Reg, readValue t r = readValue s r

/-- R61: a read of a RW register after a write to it returns the value written; for CKSUM the write is made while
BUSY = 0. -/
def Obligations.RegisterReadsBackWrite : Prop :=
  ∀ (off : Offset) (v : Word) (s t : State),
    (off ∈ [0x010#12, 0x014#12, 0x018#12, 0x01C#12, 0x02C#12] ∨ (off = 0x028#12 ∧ s.pend = none)) →
    hostWrite off 4 v s = .next t → hostRead off 4 t = .next (Answered off v t)

/-! ## Command encoding -/

/-- R88: the decoding of every 32-bit word, with the fields read off the word as a number. -/
def Obligations.WordDecodes : Prop :=
  ∀ w : Word,
    if 7 < w.toNat % 256 then decode w = .illegal .illop
    else if w.toNat / 2 ^ 11 % 32 ≠ 0 ∨ w.toNat / 2 ^ 24 % 256 ≠ 0 then decode w = .illegal .rsvd
    else if w.toNat % 256 = 1 ∧ w.toNat / 2 ^ 9 % 4 = 3 then decode w = .illegal .rsvd
    else ∃ i, decode w = .cmd i ∧ i.op.toNat = w.toNat % 256 ∧ i.fields.bank.bit.toNat = w.toNat / 2 ^ 8 % 2 ∧
      i.fields.ksrc.code.toNat = w.toNat / 2 ^ 9 % 4 ∧ i.fields.imm8.toNat = w.toNat / 2 ^ 16 % 256

/-- R80: the fields of a command's word, and the codes of the banks and of the key sources. -/
def Obligations.EncodedFieldsFollowFormat : Prop :=
  Bank.bank0.bit = 0 ∧ Bank.bank1.bit = 1 ∧ KeySource.key.code = 0 ∧ KeySource.name.code = 1 ∧
  KeySource.license.code = 2 ∧ KeySource.reserved.code = 3 ∧
  ∀ i : Instr,
    (encode i).extractLsb' 0 8 = i.op ∧ (encode i).extractLsb' 8 1 = i.fields.bank.bit ∧
    (encode i).extractLsb' 9 2 = i.fields.ksrc.code ∧ (encode i).extractLsb' 11 5 = 0 ∧
    (encode i).extractLsb' 16 8 = i.fields.imm8 ∧ (encode i).extractLsb' 24 8 = 0

/-- R89: the word of every command the assembler writes, with 0 in every ignored field. -/
def Obligations.AssemblerSyntax : Prop :=
  ∀ (b : Bank) (k : KeySource) (imm : Byte),
    encode (.nop (plainFields .bank0)) = 0x00000000#32 ∧
    (k ≠ .reserved → encode (.ksetup { bank := b, ksrc := k, imm8 := 0 }) =
      0x00000001#32 ||| (b.bit.setWidth 32 <<< 8) ||| (k.code.setWidth 32 <<< 9)) ∧
    encode (.enc (plainFields b)) = 0x00000002#32 ||| (b.bit.setWidth 32 <<< 8) ∧
    encode (.dec (plainFields b)) = 0x00000003#32 ||| (b.bit.setWidth 32 <<< 8) ∧
    encode (.ckclr (plainFields .bank0)) = 0x00000004#32 ∧
    encode (.foldb { bank := .bank0, ksrc := .key, imm8 := imm }) = 0x00000005#32 ||| (imm.setWidth 32 <<< 16) ∧
    encode (.encfold (plainFields b)) = 0x00000006#32 ||| (b.bit.setWidth 32 <<< 8) ∧
    encode (.licasm (plainFields b)) = 0x00000007#32 ||| (b.bit.setWidth 32 <<< 8)

/-- R89's examples, and one of R87's, as words written out from the encoding: each decodes to the command it stands
for. -/
def Obligations.SpecWordsDecode : Prop :=
  decode 0x00000000#32 = .cmd (.nop { bank := .bank0, ksrc := .key, imm8 := 0x00#8 }) ∧
  decode 0x00000201#32 = .cmd (.ksetup { bank := .bank0, ksrc := .name, imm8 := 0x00#8 }) ∧
  decode 0x00000501#32 = .cmd (.ksetup { bank := .bank1, ksrc := .license, imm8 := 0x00#8 }) ∧
  decode 0x00000001#32 = .cmd (.ksetup { bank := .bank0, ksrc := .key, imm8 := 0x00#8 }) ∧
  decode 0x00000002#32 = .cmd (.enc { bank := .bank0, ksrc := .key, imm8 := 0x00#8 }) ∧
  decode 0x00000103#32 = .cmd (.dec { bank := .bank1, ksrc := .key, imm8 := 0x00#8 }) ∧
  decode 0x00FF0104#32 = .cmd (.ckclr { bank := .bank1, ksrc := .key, imm8 := 0xFF#8 }) ∧
  decode 0x00800005#32 = .cmd (.foldb { bank := .bank0, ksrc := .key, imm8 := 0x80#8 }) ∧
  decode 0x00000006#32 = .cmd (.encfold { bank := .bank0, ksrc := .key, imm8 := 0x00#8 }) ∧
  decode 0x00000107#32 = .cmd (.licasm { bank := .bank1, ksrc := .key, imm8 := 0x00#8 })

/-- R80, R88: decoding the word of a well-formed command gives it back with every operand, and the word of an
ill-formed one (KSETUP with KSRC = 3) is refused with RSVD. -/
def Obligations.DecodeOfEncode : Prop :=
  ∀ i : Instr,
    (i.wellFormed = true → decode (encode i) = .cmd i ∧ decodeTableWord 32 (encode i).toNat = some i) ∧
    (i.wellFormed = false → decode (encode i) = .illegal .rsvd)

/-- R80, R88: every word that decodes to a command is that command's word, and no two words decode to one command. -/
def Obligations.EncodeOfDecode : Prop :=
  ∀ (w : Word) (i : Instr), decode w = .cmd i → i.wellFormed = true ∧ encode i = w

/-- R84: the words of an opcode are those that have its match under the mask 0xFF00F8FF, for KSETUP with KSRC other
than 3; a word that matches no row is illegal or reserved. -/
def Obligations.MatchAndMask : Prop :=
  ∀ w : Word,
    (∀ op : Byte, op.toNat ≤ 7 →
      ((∃ i, decode w = .cmd i ∧ i.op = op) ↔
        w &&& 0xFF00F8FF#32 = op.setWidth 32 ∧ (op = 1#8 → w.extractLsb' 9 2 ≠ 3#2))) ∧
    ((∀ op : Byte, op.toNat ≤ 7 →
        ¬(w &&& 0xFF00F8FF#32 = op.setWidth 32 ∧ (op = 1#8 → w.extractLsb' 9 2 ≠ 3#2))) →
      decode w = .illegal .illop ∨ decode w = .illegal .rsvd)

/-- R85, R86: an illegal or reserved word written to an idle block records its error and has no other effect. -/
def Obligations.IllegalWordsHaveNoEffect : Prop :=
  ∀ (w : Word) (s : State), s.pend = none →
    (7 < (w.extractLsb' 0 8).toNat →
      accept w s = { s with err := true, ecode := if s.err then s.ecode else 1, history := .refused .illop :: s.history }) ∧
    ((w.extractLsb' 0 8).toNat ≤ 7 → rsvdBits w = true →
      accept w s = { s with err := true, ecode := if s.err then s.ecode else 2, history := .refused .rsvd :: s.history })

/-- R87: a command that differs from another only in ignored fields behaves identically, in its completion and in its
acceptance: the bank matters to the acceptance of a command that reads one, and to nothing else of it. -/
def Obligations.IgnoredFieldsHaveNoEffect : Prop :=
  (∀ (w x : Word) (i j : Instr) (s : State), decode w = .cmd i → decode x = .cmd j → i.op = j.op →
    (i.op ∈ [0x02#8, 0x03#8, 0x06#8, 0x07#8] → i.fields.bank = j.fields.bank) →
    (accept w s).err = (accept x s).err ∧ (accept w s).ecode = (accept x s).ecode ∧
    (accept w s).history = (accept x s).history ∧ (accept w s).pend.isSome = (accept x s).pend.isSome ∧
    (accept w s).pend.map Pending.ops = (accept x s).pend.map Pending.ops) ∧
  ∀ (f g : Fields) (s : State),
    exec (.nop f) s = exec (.nop g) s ∧ exec (.ckclr f) s = exec (.ckclr g) s ∧
    (f.imm8 = g.imm8 → exec (.foldb f) s = exec (.foldb g) s) ∧
    (f.bank = g.bank →
      exec (.enc f) s = exec (.enc g) s ∧ exec (.dec f) s = exec (.dec g) s ∧
      exec (.encfold f) s = exec (.encfold g) s ∧ exec (.licasm f) s = exec (.licasm g) s) ∧
    (f.bank = g.bank → f.ksrc = g.ksrc → exec (.ksetup f) s = exec (.ksetup g) s)

/-! ## Acceptance and errors -/

/-- R24, R200: a write of CMD presents the word, and the checks come in the order busy, decoding, key state. A
refused word leaves everything but the error record as it was. -/
def Obligations.CommandAcceptance : Prop :=
  ∀ (w : Word) (s : State),
    hostWrite 0x008#12 4 w s = .next (accept w s) ∧ hostRead 0x008#12 4 s = .next (Answered 0x008#12 0 s) ∧
    (s.pend.isSome = true → accept w s = raiseError .ovr s) ∧
    (∀ c, s.pend = none → decode w = .illegal c → accept w s = raiseError c s) ∧
    (∀ i, s.pend = none → decode w = .cmd i → i.op ∈ [0x02#8, 0x03#8, 0x06#8, 0x07#8] →
      bankValid s i.fields.bank = false → accept w s = raiseError .nokey s) ∧
    (∀ i, s.pend = none → decode w = .cmd i →
      (i.op ∈ [0x02#8, 0x03#8, 0x06#8, 0x07#8] → bankValid s i.fields.bank = true) →
      Accepted i s (accept w s) ∧ (statusWord (accept w s)).getLsbD 0 = true) ∧
    (∀ c, raiseError c s =
      { s with err := (raiseError c s).err, ecode := (raiseError c s).ecode, history := (raiseError c s).history })

/-- R201, R203: the one code a refused write reports while ERR = 0, by the first cause that applies; nothing but ERR and
ECODE (and the model's history, log entry 5) records it; and a bad access is a bus error before it is anything else. -/
def Obligations.ErrorCausesAndPriority : Prop :=
  ∀ (w : Word) (s : State), s.err = false →
    (if s.pend.isSome then (accept w s).err = true ∧ (accept w s).ecode = 4
     else if 7 < (w.extractLsb' 0 8).toNat then (accept w s).err = true ∧ (accept w s).ecode = 1
     else if rsvdBits w then (accept w s).err = true ∧ (accept w s).ecode = 2
     else if w.extractLsb' 0 8 ∈ [0x02#8, 0x03#8, 0x06#8, 0x07#8] ∧ keyBit w s = false then
       (accept w s).err = true ∧ (accept w s).ecode = 3
     else (accept w s).err = false ∧ (accept w s).ecode = s.ecode ∧ (accept w s).pend.isSome = true) ∧
    ((accept w s).err = true → accept w s = { s with
      err := true, ecode := (accept w s).ecode, history := (accept w s).history }) ∧
    (∀ v : Word, s.pend.isSome = true → hostWrite 0x028#12 4 v s =
      .next { s with err := true, ecode := 4, history := .refused .ovr :: s.history }) ∧
    (∀ (off : Offset) (n : Nat), (n ≠ 4 ∨ off.toNat % 4 ≠ 0) → hostWrite off n w s = .fault (.busError off n))

/-- R202: the first error is kept; ERR stays until a STATUS write with bit 3 set or a reset; a valid command written
while ERR = 1 is accepted, as it would be with ERR = 0; and every refusal is recorded. -/
def Obligations.FirstErrorIsKept : Prop :=
  (∀ (c : CmdError) (s : State),
    (raiseError c s).err = true ∧ (s.err = false → (raiseError c s).ecode = errorCode c) ∧
    (s.err = true → (raiseError c s).ecode = s.ecode) ∧ (raiseError c s).history = .refused c :: s.history) ∧
  (∀ (v : Word) (s : State), v.getLsbD 3 = true → hostWrite 0x004#12 4 v s = .next { s with err := false, ecode := 0 }) ∧
  (∀ s t : State, step s = .next t → s.err = true →
    (∀ rest, s.inputs ≠ .reset :: rest) → (∀ v rest, v.getLsbD 3 = true → s.inputs ≠ .write 0x004#12 4 v :: rest) →
    t.err = true ∧ t.ecode = s.ecode) ∧
  (∀ (w : Word) (s : State) (i : Instr), s.err = true → s.pend = none → decode w = .cmd i →
    (i.op ∈ [0x02#8, 0x03#8, 0x06#8, 0x07#8] → bankValid s i.fields.bank = true) → Accepted i s (accept w s)) ∧
  (∀ (w : Word) (s : State) (i : Instr), Accepted i s (accept w s) →
    Accepted i { s with err := true } (accept w { s with err := true }))

/-- R205: a write of CKSUM while BUSY = 1 raises OVR and leaves CKSUM; writes of KEY, DIN and SUFFIX while BUSY = 1
raise no error and leave PEND. -/
def Obligations.CksumWriteWhileBusy : Prop :=
  ∀ (v : Word) (s : State), s.pend.isSome = true →
    hostWrite 0x028#12 4 v s = .next (raiseError .ovr s) ∧ (raiseError .ovr s).cksum = s.cksum ∧
    ∀ off ∈ [0x010#12, 0x014#12, 0x018#12, 0x01C#12, 0x02C#12],
      ∃ t, hostWrite off 4 v s = .next t ∧ t.err = s.err ∧ t.ecode = s.ecode ∧ t.pend = s.pend ∧ t.history = s.history

/-- R202: with no refusal on record after a command write, that command was accepted. -/
def Obligations.NoRefusalMeansAccepted : Prop :=
  ∀ (w : Word) (s : State), NoRefusal (accept w s) → s.pend = none ∧ ∃ i, decode w = .cmd i ∧ Accepted i s (accept w s)

/-- R25, R26, R64, R241: a write of KEY, DIN or SUFFIX while a command is pending changes the register and nothing of
what the command does. -/
def Obligations.LatchedOperandsAreIsolated : Prop :=
  ∀ (s : State) (p : Pending) (r : Reg) (v : Word), s.pend = some p →
    r ∈ [Reg.keyLo, Reg.keyHi, Reg.dinLo, Reg.dinHi, Reg.suffix] →
    ∃ t, exec p.cmd s = .next t ∧ exec p.cmd (writeReg v s r) = .next (writeReg v t r)

/-! ## Completion -/

/-- R20, R100: a step is the completion step of the pending command when it is the sequencer's turn, and otherwise
the host's next action; with nothing pending it is the host's. Whose turn it is is free (log entry 3), but the
sequencer's comes when the host has nothing more to do. -/
def Obligations.StepRunsThePendingCommand : Prop :=
  (∀ (s : State) (p : Pending), s.pend = some p → sequencerTurn s = true → step s = exec p.cmd s) ∧
  (∀ (s : State) (p : Pending), s.pend = some p → s.inputs = [] → step s = exec p.cmd s) ∧
  (∀ (s : State) (p : Pending), s.pend = some p → s.countdown = 0 → step s = exec p.cmd s) ∧
  (∀ (s : State) (a : Input) (rest : List Input), s.inputs = a :: rest → (s.pend = none ∨ s.countdown ≠ 0) →
    step s = applyInput { s with inputs := rest, countdown := s.countdown - 1 } a) ∧
  (∀ s : State, s.pend = none → s.inputs = [] → step s = .next s)

/-- The model's own placing of a command word (log entry 8): a word that decodes to a command is the very next command
to complete. -/
def Obligations.FetchWordRunsNext : Prop :=
  ∀ (s : State) (w : Word) (i : Instr), decode w = .cmd i →
    (s.withFetchWord 32 w.toNat).pend =
      some { cmd := i, ops := { key := s.keyHi ++ s.keyLo, din := s.dinHi ++ s.dinLo, suffix := s.suffix } } ∧
    step (s.withFetchWord 32 w.toNat) = exec i (s.withFetchWord 32 w.toNat)

/-- R100: every completion answers a next state, clears PEND, raises no error, and leaves the host-written operands
and the model's own fields as they were. -/
def Obligations.CompletionRetires : Prop :=
  ∀ (s : State) (p : Pending), s.pend = some p →
    ∃ t, exec p.cmd s = .next t ∧ t.pend = none ∧ (statusWord t).getLsbD 0 = false ∧
      t = { s with pend := none, kv0 := t.kv0, kv1 := t.kv1, rk0 := t.rk0, rk1 := t.rk1, doutLo := t.doutLo,
                   doutHi := t.doutHi, cksum := t.cksum, invalLo := t.invalLo, invalHi := t.invalHi, vv := t.vv }

/-- R101. -/
def Obligations.NopChangesNothing : Prop :=
  encode (.nop (plainFields .bank0)) = 0x00000000#32 ∧
  (∀ (f : Fields) (s : State) (p : Pending), s.pend = some p → exec (.nop f) s = .next { s with pend := none }) ∧
  AcceptanceErrors 0x00#8 false

/-- R110: the whole schedule of the key that KSRC names goes into the bank, whose KV becomes 1; the other bank and
everything else stays. -/
def Obligations.KsetupFillsTheBank : Prop :=
  (∀ (b : Bank) (k : KeySource), k ≠ .reserved → encode (.ksetup { bank := b, ksrc := k, imm8 := 0 }) =
    0x00000001#32 ||| (b.bit.setWidth 32 <<< 8) ||| (k.code.setWidth 32 <<< 9)) ∧
  (∀ (imm : Byte) (k : KeySource) (s : State) (p : Pending), s.pend = some p → k ≠ .reserved →
    let key := if k = .key then p.ops.key else if k = .name then 0x7A21C951691CD470#64 else 0xB4F0E0CCEC0EAFAD#64
    exec (.ksetup { bank := .bank0, ksrc := k, imm8 := imm }) s =
      .next { s with rk0 := keySchedule key, kv0 := true, pend := none } ∧
    exec (.ksetup { bank := .bank1, ksrc := k, imm8 := imm }) s =
      .next { s with rk1 := keySchedule key, kv1 := true, pend := none }) ∧
  AcceptanceErrors 0x01#8 false

/-- R130: DOUT becomes the encryption of the latched block under the bank, and nothing else changes. -/
def Obligations.EncWritesDout : Prop :=
  (∀ b : Bank, encode (.enc (plainFields b)) = 0x00000002#32 ||| (b.bit.setWidth 32 <<< 8)) ∧
  (∀ (f : Fields) (s : State) (p : Pending), s.pend = some p →
    let y := encrypt (if f.bank = .bank0 then s.rk0 else s.rk1) p.ops.din
    exec (.enc f) s = .next { s with doutHi := y.extractLsb' 32 32, doutLo := y.extractLsb' 0 32, pend := none }) ∧
  AcceptanceErrors 0x02#8 true

/-- R131: DOUT becomes the decryption of the latched block under the bank, and nothing else changes. -/
def Obligations.DecWritesDout : Prop :=
  (∀ b : Bank, encode (.dec (plainFields b)) = 0x00000003#32 ||| (b.bit.setWidth 32 <<< 8)) ∧
  (∀ (f : Fields) (s : State) (p : Pending), s.pend = some p →
    let y := decrypt (if f.bank = .bank0 then s.rk0 else s.rk1) p.ops.din
    exec (.dec f) s = .next { s with doutHi := y.extractLsb' 32 32, doutLo := y.extractLsb' 0 32, pend := none }) ∧
  (∀ (ks : RoundKeys) (x : Block), decrypt ks (encrypt ks x) = x) ∧
  AcceptanceErrors 0x03#8 true

/-- R151: CKSUM becomes 0, as a host write of 0 while BUSY = 0 makes it, and nothing else changes. -/
def Obligations.CkclrClearsCksum : Prop :=
  encode (.ckclr (plainFields .bank0)) = 0x00000004#32 ∧
  (∀ (f : Fields) (s : State) (p : Pending), s.pend = some p →
    exec (.ckclr f) s = .next { s with cksum := 0, pend := none } ∧
    exec (.ckclr f) s = hostWrite 0x028#12 4 0 { s with pend := none }) ∧
  AcceptanceErrors 0x04#8 false

/-- R152: CKSUM becomes the fold of the immediate byte into it, and nothing else changes. A byte of 0 leaves CKSUM only
where it is 0 or 0xFFFFFFFF. -/
def Obligations.FoldbFoldsOneByte : Prop :=
  (∀ imm : Byte, encode (.foldb { bank := .bank0, ksrc := .key, imm8 := imm }) =
    0x00000005#32 ||| (imm.setWidth 32 <<< 16)) ∧
  (∀ (f : Fields) (s : State) (p : Pending), s.pend = some p →
    exec (.foldb f) s = .next { s with cksum := fold s.cksum f.imm8, pend := none }) ∧
  (∀ n : Word, fold n 0 = n.rotateLeft 3 ∧ (fold n 0 = n ↔ n = 0 ∨ n = 0xFFFFFFFF#32)) ∧
  AcceptanceErrors 0x05#8 false

/-- R153: DOUT becomes the ciphertext of the latched block and CKSUM the fold of its eight bytes, most significant
first. That folding stream s and then t equals folding their concatenation is an inference the spec marks as its own
("[derived: from rule R150, since Fold is applied byte by byte in stream order]"). -/
def Obligations.EncfoldFoldsTheCiphertext : Prop :=
  (∀ b : Bank, encode (.encfold (plainFields b)) = 0x00000006#32 ||| (b.bit.setWidth 32 <<< 8)) ∧
  (∀ (f : Fields) (s : State) (p : Pending), s.pend = some p →
    let y := encrypt (if f.bank = .bank0 then s.rk0 else s.rk1) p.ops.din
    let n := [y.extractLsb' 56 8, y.extractLsb' 48 8, y.extractLsb' 40 8, y.extractLsb' 32 8, y.extractLsb' 24 8,
      y.extractLsb' 16 8, y.extractLsb' 8 8, y.extractLsb' 0 8].foldl fold s.cksum
    exec (.encfold f) s =
      .next { s with doutHi := y.extractLsb' 32 32, doutLo := y.extractLsb' 0 32, cksum := n, pend := none }) ∧
  (∀ (n : Word) (u v : List Byte), foldBytes n (u ++ v) = foldBytes (foldBytes n u) v) ∧
  AcceptanceErrors 0x06#8 true

/-- R170, R172: INVAL becomes the candidate, DOUT its decryption under the bank, VV the absolute value of its XOR fold,
and nothing else changes. -/
def Obligations.LicasmAssemblesAndDecrypts : Prop :=
  (∀ b : Bank, encode (.licasm (plainFields b)) = 0x00000007#32 ||| (b.bit.setWidth 32 <<< 8)) ∧
  (∀ (f : Fields) (s : State) (p : Pending), s.pend = some p →
    let iv : Block := (s.cksum ^^^ 0x54882F8A#32) ++ candidateLow p.ops.suffix
    let out := decrypt (if f.bank = .bank0 then s.rk0 else s.rk1) iv
    exec (.licasm f) s =
      .next { s with invalHi := s.cksum ^^^ 0x54882F8A#32, invalLo := candidateLow p.ops.suffix,
                     doutHi := out.extractLsb' 32 32, doutLo := out.extractLsb' 0 32, vv := abs8 (xorFold8 iv),
                     pend := none }) ∧
  AcceptanceErrors 0x07#8 true

/-! ## The key schedule -/

/-- R112: word 0 is P and each next word adds Q. That word t is P + t Q modulo 2^32 is an inference the spec marks as
its own ("[derived: from this rule by induction]"). -/
def Obligations.InitialRoundKeyWords : Prop :=
  ∀ t : Fin 26,
    initialWords[t] = 0xB7E15163#32 + BitVec.ofNat 32 t.val * 0x9E3779B9#32 ∧
    (t.val = 0 → initialWords[t] = BitVec.ofInt 32 (-1209970333)) ∧
    ∀ u : Fin 26, u.val = t.val + 1 → initialWords[u] = initialWords[t] + BitVec.ofInt 32 (-1640531527)

/-- R111, R113, R114: the schedule is what 78 iterations of the mixing recurrence leave in S, from the initial words
and the two halves of the key. Each S word is visited 3 times and each L word 39 times. -/
def Obligations.MixingPassGivesTheSchedule : Prop :=
  (∀ k : Block, ∃ (S : Nat → Nat → Word) (L : Nat → Nat → Word) (a b : Nat → Word),
    (∀ i : Fin 26, S 0 i.val = initialWords[i]) ∧ L 0 0 = k.extractLsb' 0 32 ∧ L 0 1 = k.extractLsb' 32 32 ∧
    a 0 = 0 ∧ b 0 = 0 ∧
    (∀ n < 78,
      a (n + 1) = rotl32 (S n (n % 26) + a n + b n) 3 ∧
      b (n + 1) = rotl32 (L n (n % 2) + a (n + 1) + b n) (a (n + 1) + b n) ∧
      (∀ i < 26, S (n + 1) i = if i = n % 26 then a (n + 1) else S n i) ∧
      (∀ j < 2, L (n + 1) j = if j = n % 2 then b (n + 1) else L n j)) ∧
    ∀ i : Fin 26, (keySchedule k)[i] = S 78 i.val) ∧
  (∀ i < 26, ((List.range 78).filter fun n => n % 26 = i).length = 3) ∧
  (∀ j < 2, ((List.range 78).filter fun n => n % 2 = j).length = 39)

/-- R115: two KSETUPs with the same key leave the same schedule in their banks, whatever the states they run in, and
so the same encryption and decryption of every block. -/
def Obligations.KeyScheduleDeterminism : Prop :=
  ∀ (f g : Fields) (s t : State) (p q : Pending), s.pend = some p → t.pend = some q →
    masterKey f.ksrc p.ops = masterKey g.ksrc q.ops →
    ∃ s' t', exec (.ksetup f) s = .next s' ∧ exec (.ksetup g) t = .next t' ∧
      bankKeys s' f.bank = bankKeys t' g.bank ∧ bankKeys s' f.bank = keySchedule (masterKey f.ksrc p.ops) ∧
      ∀ x : Block, encrypt (bankKeys s' f.bank) x = encrypt (bankKeys t' g.bank) x ∧
        decrypt (bankKeys s' f.bank) x = decrypt (bankKeys t' g.bank) x

/-! ## The cipher, the fold and the assembler -/

/-- R11: rotation of a 32-bit value by an amount taken modulo 32. -/
def Obligations.RotationPrimitives : Prop :=
  ∀ x y : Word,
    rotl32 x y = x.rotateLeft (y.toNat % 32) ∧ rotr32 x y = x.rotateRight (y.toNat % 32) ∧
    rotl32 x 0 = x ∧ rotl32 x 32 = x ∧ rotl32 x 33 = rotl32 x 1 ∧ rotl32 (rotr32 x y) y = x

/-- R132: encryption is whitening by words 0 and 1 and the twelve rounds in rising order. -/
def Obligations.EncryptFollowsRounds : Prop :=
  ∀ (S : RoundKeys) (x : Block), ∃ a b : Nat → Word,
    a 0 = x.extractLsb' 0 32 + S[0] ∧ b 0 = x.extractLsb' 32 32 + S[1] ∧
    (∀ r : Fin 12,
      a (r.val + 1) = rotl32 (a r.val ^^^ b r.val) (b r.val) + S[2 * (r.val + 1)]'(by omega) ∧
      b (r.val + 1) = rotl32 (b r.val ^^^ a (r.val + 1)) (a (r.val + 1)) + S[2 * (r.val + 1) + 1]'(by omega)) ∧
    encrypt S x = b 12 ++ a 12

/-- R133: decryption is the twelve rounds in falling order and then the subtraction of words 1 and 0. The sequences
are numbered by the round still to undo. -/
def Obligations.DecryptFollowsRounds : Prop :=
  ∀ (S : RoundKeys) (x : Block), ∃ a b : Nat → Word,
    a 12 = x.extractLsb' 0 32 ∧ b 12 = x.extractLsb' 32 32 ∧
    (∀ r : Fin 12,
      b r.val = rotr32 (b (r.val + 1) - S[2 * (r.val + 1) + 1]'(by omega)) (a (r.val + 1)) ^^^ a (r.val + 1) ∧
      a r.val = rotr32 (a (r.val + 1) - S[2 * (r.val + 1)]'(by omega)) (b r.val) ^^^ b r.val) ∧
    decrypt S x = (b 0 - S[1]) ++ (a 0 - S[0])

/-- R134: encryption and decryption are exact inverses for every schedule and block, so encryption is a bijection. -/
def Obligations.CipherInverse : Prop :=
  ∀ S : RoundKeys,
    (∀ x : Block, decrypt S (encrypt S x) = x) ∧ (∀ x : Block, encrypt S (decrypt S x) = x) ∧
    Function.Bijective (encrypt S)

/-- R13: byte k of a 64-bit value, byte 0 the most significant. -/
def Obligations.ByteSlices : Prop :=
  ∀ (v : Block) (k : Nat), k < 8 → (byteAt v k).toNat = v.toNat / 2 ^ (8 * (7 - k)) % 256

/-- R150: the fold XORs in the two's-complement pattern of the signed byte and rotates left by 3. -/
def Obligations.FoldSignExtends : Prop :=
  ∀ (n : Word) (v : Byte),
    fold n v = rotl32 (n ^^^ BitVec.ofInt 32 (if v.toNat < 128 then (v.toNat : Int) else (v.toNat : Int) - 256)) 3

/-- R171: the low word of the candidate, with the suffix read as a number. -/
def Obligations.CandidateLowWord : Prop :=
  ∀ s : Word,
    (candidateLow s).toNat =
      if s.toNat / 2 ^ 16 = 0x0401 ∨ s.toNat / 2 ^ 16 = 0x0402 ∨ s.toNat / 2 ^ 16 = 0x0403 then s.toNat
      else 0x01000000 + s.toNat % 2 ^ 24

/-- R173: the absolute value of the signed byte, with 0x80 mapped to 0x80. -/
def Obligations.AbsoluteValueOfByte : Prop :=
  ∀ x : Byte, (abs8 x).toNat = x.toInt.natAbs ∧ (abs8 x).toNat ≤ 0x80

/-- R174: the fold of the candidate is the plain XOR of its eight bytes, whatever their order. That it equals the low
byte of the XOR of the sign-extended bytes is an inference the spec marks as its own ("[derived: from this rule; sign
extension changes only bits 31:8]"). -/
def Obligations.XorFoldOfCandidate : Prop :=
  ∀ iv : Block,
    xorFold8 iv = iv.extractLsb' 56 8 ^^^ iv.extractLsb' 48 8 ^^^ iv.extractLsb' 40 8 ^^^ iv.extractLsb' 32 8 ^^^
      iv.extractLsb' 24 8 ^^^ iv.extractLsb' 16 8 ^^^ iv.extractLsb' 8 8 ^^^ iv.extractLsb' 0 8 ∧
    (∀ l : List Byte, l.Perm (bytesOf iv) → l.foldl (· ^^^ ·) 0 = xorFold8 iv) ∧
    (((bytesOf iv).map sext32).foldl (· ^^^ ·) 0).extractLsb' 0 8 = xorFold8 iv

/-! ## The whole machine -/

/-- R23, R31, R100, R200: every step keeps the invariant. -/
def Obligations.StepKeepsInvariant : Prop :=
  ∀ s t : State, StateInv s → step s = .next t → StateInv t

/-- The invariant holds after reset. -/
def Obligations.ResetMeetsInvariant : Prop := StateInv State.reset

/-- R33: KV is 0 after reset, 1 once a KSETUP of the bank has completed, and cleared by nothing but reset; while it is
0, the bank's words read as free values and a command that needs the bank is refused with NOKEY. -/
def Obligations.KeyValidBits : Prop :=
  (∀ b, bankValid State.reset b = false) ∧
  (∀ (f : Fields) (s t : State), exec (.ksetup f) s = .next t → bankValid t f.bank = true) ∧
  (∀ (s t : State) (b : Bank), step s = .next t → bankValid s b = true → (∀ rest, s.inputs ≠ .reset :: rest) →
    bankValid t b = true) ∧
  (∀ (s t : State) (b : Bank), step s = .next t → bankValid s b = false → bankValid t b = true →
    ∃ (p : Pending) (f : Fields), s.pend = some p ∧ p.cmd = .ksetup f ∧ f.bank = b) ∧
  (∀ (s : State) (b : Bank) (k : Fin 26) (off : Offset), bankValid s b = false → regAt off = .rk b k →
    off.toNat % 4 = 0 → hostRead off 4 s = .next (AnsweredFreely off s)) ∧
  (∀ (s : State) (w : Word) (i : Instr), s.pend = none → decode w = .cmd i →
    i.op ∈ [0x02#8, 0x03#8, 0x06#8, 0x07#8] → bankValid s i.fields.bank = false → accept w s = raiseError .nokey s)

/-- R32: the words of a bank change in a step only where a KSETUP of that bank completes, or where the host's next
action is the platform's reset. -/
def Obligations.BankChangesOnlyByKsetup : Prop :=
  ∀ (s t : State) (b : Bank), step s = .next t → bankKeys t b ≠ bankKeys s b →
    (∃ (p : Pending) (f : Fields), s.pend = some p ∧ p.cmd = .ksetup f ∧ f.bank = b ∧
      bankKeys t b = keySchedule (masterKey f.ksrc p.ops)) ∨
    ∃ rest, s.inputs = .reset :: rest

/-- R27, R30, R31: reset apart, DOUT changes only where ENC, DEC, ENCFOLD or LICASM completes, and INVAL and VV only
where LICASM does. -/
def Obligations.ResultsChangeOnlyByTheirCommands : Prop :=
  ∀ s t : State, step s = .next t → (∀ rest, s.inputs ≠ .reset :: rest) →
    ((t.doutHi ≠ s.doutHi ∨ t.doutLo ≠ s.doutLo) →
      ∃ p, s.pend = some p ∧ p.cmd.op ∈ [0x02#8, 0x03#8, 0x06#8, 0x07#8]) ∧
    ((t.invalHi ≠ s.invalHi ∨ t.invalLo ≠ s.invalLo ∨ t.vv ≠ s.vv) → ∃ p, s.pend = some p ∧ p.cmd.op = 0x07#8)

/-- R25, R26, R28, R29: reset apart, KEY, DIN and SUFFIX change only by a host write of their own offset, and CKSUM
only where CKCLR, FOLDB or ENCFOLD completes or by a host write while BUSY = 0. -/
def Obligations.OperandsChangeOnlyByHostWrites : Prop :=
  ∀ s t : State, step s = .next t → (∀ rest, s.inputs ≠ .reset :: rest) →
    (t.keyLo ≠ s.keyLo → ∃ rest, s.inputs = .write 0x010#12 4 t.keyLo :: rest) ∧
    (t.keyHi ≠ s.keyHi → ∃ rest, s.inputs = .write 0x014#12 4 t.keyHi :: rest) ∧
    (t.dinLo ≠ s.dinLo → ∃ rest, s.inputs = .write 0x018#12 4 t.dinLo :: rest) ∧
    (t.dinHi ≠ s.dinHi → ∃ rest, s.inputs = .write 0x01C#12 4 t.dinHi :: rest) ∧
    (t.suffix ≠ s.suffix → ∃ rest, s.inputs = .write 0x02C#12 4 t.suffix :: rest) ∧
    (t.cksum ≠ s.cksum →
      (∃ p, s.pend = some p ∧ p.cmd.op ∈ [0x04#8, 0x05#8, 0x06#8]) ∨
      (s.pend = none ∧ ∃ rest, s.inputs = .write 0x028#12 4 t.cksum :: rest))

/-- R242, in the model's form of the progress assumption (log entry 3): a pending command completes after at most
`countdown` steps of the host, each of which the host takes without a fault or a reset. -/
def Obligations.AcceptedCommandCompletes : Prop :=
  ∀ (s : State) (p : Pending), s.pend = some p → (∀ a ∈ s.inputs, plainInput a = true) →
    ∃ n ≤ s.countdown, ∃ t u, runSteps n s = .next t ∧ t.pend = some p ∧ step t = exec p.cmd t ∧
      exec p.cmd t = .next u ∧ u.pend = none

/-- R202: the history only grows, so that no later action, a reset among them (log entry 5), hides a refusal. -/
def Obligations.HistoryOnlyGrows : Prop :=
  ∀ s t : State, step s = .next t → s.history <:+ t.history

/-! ## The host procedure -/

/-- R176: the padded name: its 4-byte big-endian length, its bytes, zeros, to the smallest multiple of 8 that holds
them and at least 8 bytes. -/
def Obligations.PaddedMessage : Prop :=
  ∀ m : List Byte,
    (padName m).length = max 8 (8 * ((4 + m.length + 7) / 8)) ∧ (padName m).length % 8 = 0 ∧ 8 ≤ (padName m).length ∧
    4 + m.length ≤ (padName m).length ∧ (padName m).length < 4 + m.length + 8 ∧
    (m.length < 2 ^ 32 → ((padName m).take 4).foldl (fun n b => 256 * n + b.toNat) 0 = m.length) ∧
    ((padName m).drop 4).take m.length = m ∧ (∀ b ∈ (padName m).drop (4 + m.length), b = 0)

/-- R177: block q of a padded message is its bytes 8q to 8q+7, the first in the most significant place. -/
def Obligations.BlocksAreBigEndian : Prop :=
  ∀ (m : List Byte) (q k : Nat), q < (padName m).length / 8 → k < 8 →
    (blocksOf (padName m)).length = (padName m).length / 8 ∧
    ((blocksOf (padName m))[q]?.map fun x => byteAt x k) = (padName m)[8 * q + k]?

/-- R180: two lowercase hexadecimal digits of vv and sixteen of out, most significant first, 18 characters in all.
That the first two are at most "80" is an inference the spec marks as its own ("[derived: from rule R173]"). -/
def Obligations.DerivedTextFormat : Prop :=
  ∀ (m : List Byte) (suffix : Word),
    let iv := derivedCandidate m suffix
    let vv := (abs8 (xorFold8 iv)).toNat
    let out := (decrypt (keySchedule 0xB4F0E0CCEC0EAFAD#64) iv).toNat
    (deriveChars m suffix).length = 18 ∧
    (∀ k < 2, (deriveChars m suffix)[k]? = some (Nat.digitChar (vv / 16 ^ (1 - k) % 16))) ∧
    (∀ k < 16, (deriveChars m suffix)[k + 2]? = some (Nat.digitChar (out / 16 ^ (15 - k) % 16))) ∧
    vv ≤ 0x80 ∧ ∀ c ∈ deriveChars m suffix, c.isDigit ∨ c ∈ ['a', 'b', 'c', 'd', 'e', 'f']
end

