-- ==== Sys2Proof/Laws/Decode.lean ====
section
/-!
SUPPORT. The bits of a command word, and what the tables of the encoding do field by field.
-/

namespace Sys2Proof

/-- The bits of a concatenation, for widths given by name. -/
theorem append_bit (n m : Nat) (x : BitVec n) (y : BitVec m) (j : Nat) :
    (x ++ y).getLsbD j = if j < m then y.getLsbD j else x.getLsbD (j - m) := BitVec.getLsbD_append

/-- The bits of an encoded command (R80). -/
theorem encode_getLsbD (i : Instr) (j : Nat) : (encode i).getLsbD j =
    if j < 8 then i.op.getLsbD j
    else if j < 9 then i.fields.bank.bit.getLsbD (j - 8)
    else if j < 11 then i.fields.ksrc.code.getLsbD (j - 9)
    else if j < 16 then false
    else if j < 24 then i.fields.imm8.getLsbD (j - 16)
    else false := by
  have e : encode i = ((((((0#8 ++ i.fields.imm8 : BitVec 16) ++ 0#5 : BitVec 21) ++ i.fields.ksrc.code : BitVec 23)
    ++ i.fields.bank.bit : BitVec 24) ++ i.op : BitVec 32)) := rfl
  rw [e, append_bit 24 8, append_bit 23 1, append_bit 21 2, append_bit 16 5, append_bit 8 8]
  simp only [Nat.sub_sub, Nat.reduceAdd]
  split_ifs <;> first | rfl | omega | simp

@[simp] theorem Bank.ofBit_bit (b : Bank) : Bank.ofBit b.bit = b := by cases b <;> rfl

@[simp] theorem Bank.bit_ofBit : ∀ b : BitVec 1, (Bank.ofBit b).bit = b := by decide

@[simp] theorem KeySource.ofCode_code (k : KeySource) : KeySource.ofCode k.code = k := by cases k <;> rfl

@[simp] theorem KeySource.code_ofCode : ∀ c : BitVec 2, (KeySource.ofCode c).code = c := by decide

/-- The opcode map gives back the command whose opcode and fields it is given (R83). -/
@[simp] theorem Instr.ofOp_op (i : Instr) : Instr.ofOp i.op.toNat i.fields = some i := by cases i <;> rfl

/-- The opcode map answers with a command of that opcode and those fields. -/
theorem Instr.ofOp_eq_some {n : Nat} {f : Fields} {i : Instr} (h : Instr.ofOp n f = some i) :
    i.op.toNat = n ∧ i.fields = f := by
  unfold Instr.ofOp at h
  split at h <;> cases h <;> exact ⟨rfl, rfl⟩

/-- The opcode map has no command exactly above 7 (R85). -/
theorem Instr.ofOp_eq_none {n : Nat} {f : Fields} : Instr.ofOp n f = none ↔ 7 < n := by
  constructor
  · intro h
    by_contra hc
    have : n < 8 := by omega
    interval_cases n <;> cases h
  · intro h
    unfold Instr.ofOp
    split <;> first | rfl | omega

/-- Two words with the same six fields are the same word (R80). -/
theorem word_ext {v w : Word} (h0 : v.extractLsb' 0 8 = w.extractLsb' 0 8)
    (h1 : v.extractLsb' 8 1 = w.extractLsb' 8 1) (h2 : v.extractLsb' 9 2 = w.extractLsb' 9 2)
    (h3 : v.extractLsb' 11 5 = w.extractLsb' 11 5) (h4 : v.extractLsb' 16 8 = w.extractLsb' 16 8)
    (h5 : v.extractLsb' 24 8 = w.extractLsb' 24 8) : v = w := by
  apply BitVec.eq_of_getLsbD_eq
  intro j hj
  have key : ∀ s l : Nat, v.extractLsb' s l = w.extractLsb' s l → s ≤ j → j < s + l → v.getLsbD j = w.getLsbD j := by
    intro s l h hs hl
    have := congrArg (fun x => x.getLsbD (j - s)) h
    simpa [BitVec.getLsbD_extractLsb', show j - s < l by omega, show s + (j - s) = j by omega] using this
  by_cases a8 : j < 8
  · exact key _ _ h0 (by omega) (by omega)
  by_cases a9 : j < 9
  · exact key _ _ h1 (by omega) (by omega)
  by_cases a11 : j < 11
  · exact key _ _ h2 (by omega) (by omega)
  by_cases a16 : j < 16
  · exact key _ _ h3 (by omega) (by omega)
  by_cases a24 : j < 24
  · exact key _ _ h4 (by omega) (by omega)
  · exact key _ _ h5 (by omega) (by omega)

end Sys2Proof
end

