-- ==== Sys2Proof/Laws/State.lean ====
section
/-!
SUPPORT. What each named update of the state does to each field: one lemma per field per update, so that no later
proof unfolds a record update.
-/

namespace Sys2Proof.Machine

@[simp] theorem writeDout_keyLo (y : Block) (s : State) : (writeDout y s).keyLo = s.keyLo := rfl
@[simp] theorem writeDout_keyHi (y : Block) (s : State) : (writeDout y s).keyHi = s.keyHi := rfl
@[simp] theorem writeDout_dinLo (y : Block) (s : State) : (writeDout y s).dinLo = s.dinLo := rfl
@[simp] theorem writeDout_dinHi (y : Block) (s : State) : (writeDout y s).dinHi = s.dinHi := rfl
@[simp] theorem writeDout_doutLo (y : Block) (s : State) : (writeDout y s).doutLo = lowWord y := rfl
@[simp] theorem writeDout_doutHi (y : Block) (s : State) : (writeDout y s).doutHi = highWord y := rfl
@[simp] theorem writeDout_cksum (y : Block) (s : State) : (writeDout y s).cksum = s.cksum := rfl
@[simp] theorem writeDout_suffix (y : Block) (s : State) : (writeDout y s).suffix = s.suffix := rfl
@[simp] theorem writeDout_invalLo (y : Block) (s : State) : (writeDout y s).invalLo = s.invalLo := rfl
@[simp] theorem writeDout_invalHi (y : Block) (s : State) : (writeDout y s).invalHi = s.invalHi := rfl
@[simp] theorem writeDout_vv (y : Block) (s : State) : (writeDout y s).vv = s.vv := rfl
@[simp] theorem writeDout_kv0 (y : Block) (s : State) : (writeDout y s).kv0 = s.kv0 := rfl
@[simp] theorem writeDout_kv1 (y : Block) (s : State) : (writeDout y s).kv1 = s.kv1 := rfl
@[simp] theorem writeDout_rk0 (y : Block) (s : State) : (writeDout y s).rk0 = s.rk0 := rfl
@[simp] theorem writeDout_rk1 (y : Block) (s : State) : (writeDout y s).rk1 = s.rk1 := rfl
@[simp] theorem writeDout_err (y : Block) (s : State) : (writeDout y s).err = s.err := rfl
@[simp] theorem writeDout_ecode (y : Block) (s : State) : (writeDout y s).ecode = s.ecode := rfl
@[simp] theorem writeDout_pend (y : Block) (s : State) : (writeDout y s).pend = s.pend := rfl
@[simp] theorem writeDout_countdown (y : Block) (s : State) : (writeDout y s).countdown = s.countdown := rfl
@[simp] theorem writeDout_inputs (y : Block) (s : State) : (writeDout y s).inputs = s.inputs := rfl
@[simp] theorem writeDout_history (y : Block) (s : State) : (writeDout y s).history = s.history := rfl
@[simp] theorem writeDout_draws (y : Block) (s : State) : (writeDout y s).draws = s.draws := rfl

@[simp] theorem writeInval_keyLo (iv : Block) (s : State) : (writeInval iv s).keyLo = s.keyLo := rfl
@[simp] theorem writeInval_keyHi (iv : Block) (s : State) : (writeInval iv s).keyHi = s.keyHi := rfl
@[simp] theorem writeInval_dinLo (iv : Block) (s : State) : (writeInval iv s).dinLo = s.dinLo := rfl
@[simp] theorem writeInval_dinHi (iv : Block) (s : State) : (writeInval iv s).dinHi = s.dinHi := rfl
@[simp] theorem writeInval_doutLo (iv : Block) (s : State) : (writeInval iv s).doutLo = s.doutLo := rfl
@[simp] theorem writeInval_doutHi (iv : Block) (s : State) : (writeInval iv s).doutHi = s.doutHi := rfl
@[simp] theorem writeInval_cksum (iv : Block) (s : State) : (writeInval iv s).cksum = s.cksum := rfl
@[simp] theorem writeInval_suffix (iv : Block) (s : State) : (writeInval iv s).suffix = s.suffix := rfl
@[simp] theorem writeInval_invalLo (iv : Block) (s : State) : (writeInval iv s).invalLo = lowWord iv := rfl
@[simp] theorem writeInval_invalHi (iv : Block) (s : State) : (writeInval iv s).invalHi = highWord iv := rfl
@[simp] theorem writeInval_vv (iv : Block) (s : State) : (writeInval iv s).vv = s.vv := rfl
@[simp] theorem writeInval_kv0 (iv : Block) (s : State) : (writeInval iv s).kv0 = s.kv0 := rfl
@[simp] theorem writeInval_kv1 (iv : Block) (s : State) : (writeInval iv s).kv1 = s.kv1 := rfl
@[simp] theorem writeInval_rk0 (iv : Block) (s : State) : (writeInval iv s).rk0 = s.rk0 := rfl
@[simp] theorem writeInval_rk1 (iv : Block) (s : State) : (writeInval iv s).rk1 = s.rk1 := rfl
@[simp] theorem writeInval_err (iv : Block) (s : State) : (writeInval iv s).err = s.err := rfl
@[simp] theorem writeInval_ecode (iv : Block) (s : State) : (writeInval iv s).ecode = s.ecode := rfl
@[simp] theorem writeInval_pend (iv : Block) (s : State) : (writeInval iv s).pend = s.pend := rfl
@[simp] theorem writeInval_countdown (iv : Block) (s : State) : (writeInval iv s).countdown = s.countdown := rfl
@[simp] theorem writeInval_inputs (iv : Block) (s : State) : (writeInval iv s).inputs = s.inputs := rfl
@[simp] theorem writeInval_history (iv : Block) (s : State) : (writeInval iv s).history = s.history := rfl
@[simp] theorem writeInval_draws (iv : Block) (s : State) : (writeInval iv s).draws = s.draws := rfl

@[simp] theorem writeCksum_keyLo (v : Word) (s : State) : (writeCksum v s).keyLo = s.keyLo := rfl
@[simp] theorem writeCksum_keyHi (v : Word) (s : State) : (writeCksum v s).keyHi = s.keyHi := rfl
@[simp] theorem writeCksum_dinLo (v : Word) (s : State) : (writeCksum v s).dinLo = s.dinLo := rfl
@[simp] theorem writeCksum_dinHi (v : Word) (s : State) : (writeCksum v s).dinHi = s.dinHi := rfl
@[simp] theorem writeCksum_doutLo (v : Word) (s : State) : (writeCksum v s).doutLo = s.doutLo := rfl
@[simp] theorem writeCksum_doutHi (v : Word) (s : State) : (writeCksum v s).doutHi = s.doutHi := rfl
@[simp] theorem writeCksum_cksum (v : Word) (s : State) : (writeCksum v s).cksum = v := rfl
@[simp] theorem writeCksum_suffix (v : Word) (s : State) : (writeCksum v s).suffix = s.suffix := rfl
@[simp] theorem writeCksum_invalLo (v : Word) (s : State) : (writeCksum v s).invalLo = s.invalLo := rfl
@[simp] theorem writeCksum_invalHi (v : Word) (s : State) : (writeCksum v s).invalHi = s.invalHi := rfl
@[simp] theorem writeCksum_vv (v : Word) (s : State) : (writeCksum v s).vv = s.vv := rfl
@[simp] theorem writeCksum_kv0 (v : Word) (s : State) : (writeCksum v s).kv0 = s.kv0 := rfl
@[simp] theorem writeCksum_kv1 (v : Word) (s : State) : (writeCksum v s).kv1 = s.kv1 := rfl
@[simp] theorem writeCksum_rk0 (v : Word) (s : State) : (writeCksum v s).rk0 = s.rk0 := rfl
@[simp] theorem writeCksum_rk1 (v : Word) (s : State) : (writeCksum v s).rk1 = s.rk1 := rfl
@[simp] theorem writeCksum_err (v : Word) (s : State) : (writeCksum v s).err = s.err := rfl
@[simp] theorem writeCksum_ecode (v : Word) (s : State) : (writeCksum v s).ecode = s.ecode := rfl
@[simp] theorem writeCksum_pend (v : Word) (s : State) : (writeCksum v s).pend = s.pend := rfl
@[simp] theorem writeCksum_countdown (v : Word) (s : State) : (writeCksum v s).countdown = s.countdown := rfl
@[simp] theorem writeCksum_inputs (v : Word) (s : State) : (writeCksum v s).inputs = s.inputs := rfl
@[simp] theorem writeCksum_history (v : Word) (s : State) : (writeCksum v s).history = s.history := rfl
@[simp] theorem writeCksum_draws (v : Word) (s : State) : (writeCksum v s).draws = s.draws := rfl

@[simp] theorem writeVv_keyLo (v : Byte) (s : State) : (writeVv v s).keyLo = s.keyLo := rfl
@[simp] theorem writeVv_keyHi (v : Byte) (s : State) : (writeVv v s).keyHi = s.keyHi := rfl
@[simp] theorem writeVv_dinLo (v : Byte) (s : State) : (writeVv v s).dinLo = s.dinLo := rfl
@[simp] theorem writeVv_dinHi (v : Byte) (s : State) : (writeVv v s).dinHi = s.dinHi := rfl
@[simp] theorem writeVv_doutLo (v : Byte) (s : State) : (writeVv v s).doutLo = s.doutLo := rfl
@[simp] theorem writeVv_doutHi (v : Byte) (s : State) : (writeVv v s).doutHi = s.doutHi := rfl
@[simp] theorem writeVv_cksum (v : Byte) (s : State) : (writeVv v s).cksum = s.cksum := rfl
@[simp] theorem writeVv_suffix (v : Byte) (s : State) : (writeVv v s).suffix = s.suffix := rfl
@[simp] theorem writeVv_invalLo (v : Byte) (s : State) : (writeVv v s).invalLo = s.invalLo := rfl
@[simp] theorem writeVv_invalHi (v : Byte) (s : State) : (writeVv v s).invalHi = s.invalHi := rfl
@[simp] theorem writeVv_vv (v : Byte) (s : State) : (writeVv v s).vv = v := rfl
@[simp] theorem writeVv_kv0 (v : Byte) (s : State) : (writeVv v s).kv0 = s.kv0 := rfl
@[simp] theorem writeVv_kv1 (v : Byte) (s : State) : (writeVv v s).kv1 = s.kv1 := rfl
@[simp] theorem writeVv_rk0 (v : Byte) (s : State) : (writeVv v s).rk0 = s.rk0 := rfl
@[simp] theorem writeVv_rk1 (v : Byte) (s : State) : (writeVv v s).rk1 = s.rk1 := rfl
@[simp] theorem writeVv_err (v : Byte) (s : State) : (writeVv v s).err = s.err := rfl
@[simp] theorem writeVv_ecode (v : Byte) (s : State) : (writeVv v s).ecode = s.ecode := rfl
@[simp] theorem writeVv_pend (v : Byte) (s : State) : (writeVv v s).pend = s.pend := rfl
@[simp] theorem writeVv_countdown (v : Byte) (s : State) : (writeVv v s).countdown = s.countdown := rfl
@[simp] theorem writeVv_inputs (v : Byte) (s : State) : (writeVv v s).inputs = s.inputs := rfl
@[simp] theorem writeVv_history (v : Byte) (s : State) : (writeVv v s).history = s.history := rfl
@[simp] theorem writeVv_draws (v : Byte) (s : State) : (writeVv v s).draws = s.draws := rfl

@[simp] theorem retire_keyLo (s : State) : (retire s).keyLo = s.keyLo := rfl
@[simp] theorem retire_keyHi (s : State) : (retire s).keyHi = s.keyHi := rfl
@[simp] theorem retire_dinLo (s : State) : (retire s).dinLo = s.dinLo := rfl
@[simp] theorem retire_dinHi (s : State) : (retire s).dinHi = s.dinHi := rfl
@[simp] theorem retire_doutLo (s : State) : (retire s).doutLo = s.doutLo := rfl
@[simp] theorem retire_doutHi (s : State) : (retire s).doutHi = s.doutHi := rfl
@[simp] theorem retire_cksum (s : State) : (retire s).cksum = s.cksum := rfl
@[simp] theorem retire_suffix (s : State) : (retire s).suffix = s.suffix := rfl
@[simp] theorem retire_invalLo (s : State) : (retire s).invalLo = s.invalLo := rfl
@[simp] theorem retire_invalHi (s : State) : (retire s).invalHi = s.invalHi := rfl
@[simp] theorem retire_vv (s : State) : (retire s).vv = s.vv := rfl
@[simp] theorem retire_kv0 (s : State) : (retire s).kv0 = s.kv0 := rfl
@[simp] theorem retire_kv1 (s : State) : (retire s).kv1 = s.kv1 := rfl
@[simp] theorem retire_rk0 (s : State) : (retire s).rk0 = s.rk0 := rfl
@[simp] theorem retire_rk1 (s : State) : (retire s).rk1 = s.rk1 := rfl
@[simp] theorem retire_err (s : State) : (retire s).err = s.err := rfl
@[simp] theorem retire_ecode (s : State) : (retire s).ecode = s.ecode := rfl
@[simp] theorem retire_pend (s : State) : (retire s).pend = none := rfl
@[simp] theorem retire_countdown (s : State) : (retire s).countdown = s.countdown := rfl
@[simp] theorem retire_inputs (s : State) : (retire s).inputs = s.inputs := rfl
@[simp] theorem retire_history (s : State) : (retire s).history = s.history := rfl
@[simp] theorem retire_draws (s : State) : (retire s).draws = s.draws := rfl

@[simp] theorem clearError_keyLo (s : State) : (clearError s).keyLo = s.keyLo := rfl
@[simp] theorem clearError_keyHi (s : State) : (clearError s).keyHi = s.keyHi := rfl
@[simp] theorem clearError_dinLo (s : State) : (clearError s).dinLo = s.dinLo := rfl
@[simp] theorem clearError_dinHi (s : State) : (clearError s).dinHi = s.dinHi := rfl
@[simp] theorem clearError_doutLo (s : State) : (clearError s).doutLo = s.doutLo := rfl
@[simp] theorem clearError_doutHi (s : State) : (clearError s).doutHi = s.doutHi := rfl
@[simp] theorem clearError_cksum (s : State) : (clearError s).cksum = s.cksum := rfl
@[simp] theorem clearError_suffix (s : State) : (clearError s).suffix = s.suffix := rfl
@[simp] theorem clearError_invalLo (s : State) : (clearError s).invalLo = s.invalLo := rfl
@[simp] theorem clearError_invalHi (s : State) : (clearError s).invalHi = s.invalHi := rfl
@[simp] theorem clearError_vv (s : State) : (clearError s).vv = s.vv := rfl
@[simp] theorem clearError_kv0 (s : State) : (clearError s).kv0 = s.kv0 := rfl
@[simp] theorem clearError_kv1 (s : State) : (clearError s).kv1 = s.kv1 := rfl
@[simp] theorem clearError_rk0 (s : State) : (clearError s).rk0 = s.rk0 := rfl
@[simp] theorem clearError_rk1 (s : State) : (clearError s).rk1 = s.rk1 := rfl
@[simp] theorem clearError_err (s : State) : (clearError s).err = false := rfl
@[simp] theorem clearError_ecode (s : State) : (clearError s).ecode = 0 := rfl
@[simp] theorem clearError_pend (s : State) : (clearError s).pend = s.pend := rfl
@[simp] theorem clearError_countdown (s : State) : (clearError s).countdown = s.countdown := rfl
@[simp] theorem clearError_inputs (s : State) : (clearError s).inputs = s.inputs := rfl
@[simp] theorem clearError_history (s : State) : (clearError s).history = s.history := rfl
@[simp] theorem clearError_draws (s : State) : (clearError s).draws = s.draws := rfl

@[simp] theorem takeInput_keyLo (rest : List Input) (s : State) : (takeInput rest s).keyLo = s.keyLo := rfl
@[simp] theorem takeInput_keyHi (rest : List Input) (s : State) : (takeInput rest s).keyHi = s.keyHi := rfl
@[simp] theorem takeInput_dinLo (rest : List Input) (s : State) : (takeInput rest s).dinLo = s.dinLo := rfl
@[simp] theorem takeInput_dinHi (rest : List Input) (s : State) : (takeInput rest s).dinHi = s.dinHi := rfl
@[simp] theorem takeInput_doutLo (rest : List Input) (s : State) : (takeInput rest s).doutLo = s.doutLo := rfl
@[simp] theorem takeInput_doutHi (rest : List Input) (s : State) : (takeInput rest s).doutHi = s.doutHi := rfl
@[simp] theorem takeInput_cksum (rest : List Input) (s : State) : (takeInput rest s).cksum = s.cksum := rfl
@[simp] theorem takeInput_suffix (rest : List Input) (s : State) : (takeInput rest s).suffix = s.suffix := rfl
@[simp] theorem takeInput_invalLo (rest : List Input) (s : State) : (takeInput rest s).invalLo = s.invalLo := rfl
@[simp] theorem takeInput_invalHi (rest : List Input) (s : State) : (takeInput rest s).invalHi = s.invalHi := rfl
@[simp] theorem takeInput_vv (rest : List Input) (s : State) : (takeInput rest s).vv = s.vv := rfl
@[simp] theorem takeInput_kv0 (rest : List Input) (s : State) : (takeInput rest s).kv0 = s.kv0 := rfl
@[simp] theorem takeInput_kv1 (rest : List Input) (s : State) : (takeInput rest s).kv1 = s.kv1 := rfl
@[simp] theorem takeInput_rk0 (rest : List Input) (s : State) : (takeInput rest s).rk0 = s.rk0 := rfl
@[simp] theorem takeInput_rk1 (rest : List Input) (s : State) : (takeInput rest s).rk1 = s.rk1 := rfl
@[simp] theorem takeInput_err (rest : List Input) (s : State) : (takeInput rest s).err = s.err := rfl
@[simp] theorem takeInput_ecode (rest : List Input) (s : State) : (takeInput rest s).ecode = s.ecode := rfl
@[simp] theorem takeInput_pend (rest : List Input) (s : State) : (takeInput rest s).pend = s.pend := rfl
@[simp] theorem takeInput_countdown (rest : List Input) (s : State) : (takeInput rest s).countdown = s.countdown - 1 := rfl
@[simp] theorem takeInput_inputs (rest : List Input) (s : State) : (takeInput rest s).inputs = rest := rfl
@[simp] theorem takeInput_history (rest : List Input) (s : State) : (takeInput rest s).history = s.history := rfl
@[simp] theorem takeInput_draws (rest : List Input) (s : State) : (takeInput rest s).draws = s.draws := rfl

@[simp] theorem latchCommand_keyLo (i : Instr) (s : State) : (latchCommand i s).keyLo = s.keyLo := rfl
@[simp] theorem latchCommand_keyHi (i : Instr) (s : State) : (latchCommand i s).keyHi = s.keyHi := rfl
@[simp] theorem latchCommand_dinLo (i : Instr) (s : State) : (latchCommand i s).dinLo = s.dinLo := rfl
@[simp] theorem latchCommand_dinHi (i : Instr) (s : State) : (latchCommand i s).dinHi = s.dinHi := rfl
@[simp] theorem latchCommand_doutLo (i : Instr) (s : State) : (latchCommand i s).doutLo = s.doutLo := rfl
@[simp] theorem latchCommand_doutHi (i : Instr) (s : State) : (latchCommand i s).doutHi = s.doutHi := rfl
@[simp] theorem latchCommand_cksum (i : Instr) (s : State) : (latchCommand i s).cksum = s.cksum := rfl
@[simp] theorem latchCommand_suffix (i : Instr) (s : State) : (latchCommand i s).suffix = s.suffix := rfl
@[simp] theorem latchCommand_invalLo (i : Instr) (s : State) : (latchCommand i s).invalLo = s.invalLo := rfl
@[simp] theorem latchCommand_invalHi (i : Instr) (s : State) : (latchCommand i s).invalHi = s.invalHi := rfl
@[simp] theorem latchCommand_vv (i : Instr) (s : State) : (latchCommand i s).vv = s.vv := rfl
@[simp] theorem latchCommand_kv0 (i : Instr) (s : State) : (latchCommand i s).kv0 = s.kv0 := rfl
@[simp] theorem latchCommand_kv1 (i : Instr) (s : State) : (latchCommand i s).kv1 = s.kv1 := rfl
@[simp] theorem latchCommand_rk0 (i : Instr) (s : State) : (latchCommand i s).rk0 = s.rk0 := rfl
@[simp] theorem latchCommand_rk1 (i : Instr) (s : State) : (latchCommand i s).rk1 = s.rk1 := rfl
@[simp] theorem latchCommand_err (i : Instr) (s : State) : (latchCommand i s).err = s.err := rfl
@[simp] theorem latchCommand_ecode (i : Instr) (s : State) : (latchCommand i s).ecode = s.ecode := rfl
@[simp] theorem latchCommand_pend (i : Instr) (s : State) : (latchCommand i s).pend = some { cmd := i, ops := captureOperands s } := rfl
@[simp] theorem latchCommand_countdown (i : Instr) (s : State) : (latchCommand i s).countdown = Config.latency s.draws := rfl
@[simp] theorem latchCommand_inputs (i : Instr) (s : State) : (latchCommand i s).inputs = s.inputs := rfl
@[simp] theorem latchCommand_history (i : Instr) (s : State) : (latchCommand i s).history = s.history := rfl
@[simp] theorem latchCommand_draws (i : Instr) (s : State) : (latchCommand i s).draws = s.draws + 1 := rfl

@[simp] theorem setBankValid_keyLo (b : Bank) (s : State) : (setBankValid b s).keyLo = s.keyLo := by cases b <;> rfl
@[simp] theorem setBankValid_keyHi (b : Bank) (s : State) : (setBankValid b s).keyHi = s.keyHi := by cases b <;> rfl
@[simp] theorem setBankValid_dinLo (b : Bank) (s : State) : (setBankValid b s).dinLo = s.dinLo := by cases b <;> rfl
@[simp] theorem setBankValid_dinHi (b : Bank) (s : State) : (setBankValid b s).dinHi = s.dinHi := by cases b <;> rfl
@[simp] theorem setBankValid_doutLo (b : Bank) (s : State) : (setBankValid b s).doutLo = s.doutLo := by cases b <;> rfl
@[simp] theorem setBankValid_doutHi (b : Bank) (s : State) : (setBankValid b s).doutHi = s.doutHi := by cases b <;> rfl
@[simp] theorem setBankValid_cksum (b : Bank) (s : State) : (setBankValid b s).cksum = s.cksum := by cases b <;> rfl
@[simp] theorem setBankValid_suffix (b : Bank) (s : State) : (setBankValid b s).suffix = s.suffix := by cases b <;> rfl
@[simp] theorem setBankValid_invalLo (b : Bank) (s : State) : (setBankValid b s).invalLo = s.invalLo := by cases b <;> rfl
@[simp] theorem setBankValid_invalHi (b : Bank) (s : State) : (setBankValid b s).invalHi = s.invalHi := by cases b <;> rfl
@[simp] theorem setBankValid_vv (b : Bank) (s : State) : (setBankValid b s).vv = s.vv := by cases b <;> rfl
@[simp] theorem setBankValid_rk0 (b : Bank) (s : State) : (setBankValid b s).rk0 = s.rk0 := by cases b <;> rfl
@[simp] theorem setBankValid_rk1 (b : Bank) (s : State) : (setBankValid b s).rk1 = s.rk1 := by cases b <;> rfl
@[simp] theorem setBankValid_err (b : Bank) (s : State) : (setBankValid b s).err = s.err := by cases b <;> rfl
@[simp] theorem setBankValid_ecode (b : Bank) (s : State) : (setBankValid b s).ecode = s.ecode := by cases b <;> rfl
@[simp] theorem setBankValid_pend (b : Bank) (s : State) : (setBankValid b s).pend = s.pend := by cases b <;> rfl
@[simp] theorem setBankValid_countdown (b : Bank) (s : State) : (setBankValid b s).countdown = s.countdown := by cases b <;> rfl
@[simp] theorem setBankValid_inputs (b : Bank) (s : State) : (setBankValid b s).inputs = s.inputs := by cases b <;> rfl
@[simp] theorem setBankValid_history (b : Bank) (s : State) : (setBankValid b s).history = s.history := by cases b <;> rfl
@[simp] theorem setBankValid_draws (b : Bank) (s : State) : (setBankValid b s).draws = s.draws := by cases b <;> rfl

@[simp] theorem setBankKeys_keyLo (b : Bank) (ks : RoundKeys) (s : State) : (setBankKeys b ks s).keyLo = s.keyLo := by cases b <;> rfl
@[simp] theorem setBankKeys_keyHi (b : Bank) (ks : RoundKeys) (s : State) : (setBankKeys b ks s).keyHi = s.keyHi := by cases b <;> rfl
@[simp] theorem setBankKeys_dinLo (b : Bank) (ks : RoundKeys) (s : State) : (setBankKeys b ks s).dinLo = s.dinLo := by cases b <;> rfl
@[simp] theorem setBankKeys_dinHi (b : Bank) (ks : RoundKeys) (s : State) : (setBankKeys b ks s).dinHi = s.dinHi := by cases b <;> rfl
@[simp] theorem setBankKeys_doutLo (b : Bank) (ks : RoundKeys) (s : State) : (setBankKeys b ks s).doutLo = s.doutLo := by cases b <;> rfl
@[simp] theorem setBankKeys_doutHi (b : Bank) (ks : RoundKeys) (s : State) : (setBankKeys b ks s).doutHi = s.doutHi := by cases b <;> rfl
@[simp] theorem setBankKeys_cksum (b : Bank) (ks : RoundKeys) (s : State) : (setBankKeys b ks s).cksum = s.cksum := by cases b <;> rfl
@[simp] theorem setBankKeys_suffix (b : Bank) (ks : RoundKeys) (s : State) : (setBankKeys b ks s).suffix = s.suffix := by cases b <;> rfl
@[simp] theorem setBankKeys_invalLo (b : Bank) (ks : RoundKeys) (s : State) : (setBankKeys b ks s).invalLo = s.invalLo := by cases b <;> rfl
@[simp] theorem setBankKeys_invalHi (b : Bank) (ks : RoundKeys) (s : State) : (setBankKeys b ks s).invalHi = s.invalHi := by cases b <;> rfl
@[simp] theorem setBankKeys_vv (b : Bank) (ks : RoundKeys) (s : State) : (setBankKeys b ks s).vv = s.vv := by cases b <;> rfl
@[simp] theorem setBankKeys_kv0 (b : Bank) (ks : RoundKeys) (s : State) : (setBankKeys b ks s).kv0 = s.kv0 := by cases b <;> rfl
@[simp] theorem setBankKeys_kv1 (b : Bank) (ks : RoundKeys) (s : State) : (setBankKeys b ks s).kv1 = s.kv1 := by cases b <;> rfl
@[simp] theorem setBankKeys_err (b : Bank) (ks : RoundKeys) (s : State) : (setBankKeys b ks s).err = s.err := by cases b <;> rfl
@[simp] theorem setBankKeys_ecode (b : Bank) (ks : RoundKeys) (s : State) : (setBankKeys b ks s).ecode = s.ecode := by cases b <;> rfl
@[simp] theorem setBankKeys_pend (b : Bank) (ks : RoundKeys) (s : State) : (setBankKeys b ks s).pend = s.pend := by cases b <;> rfl
@[simp] theorem setBankKeys_countdown (b : Bank) (ks : RoundKeys) (s : State) : (setBankKeys b ks s).countdown = s.countdown := by cases b <;> rfl
@[simp] theorem setBankKeys_inputs (b : Bank) (ks : RoundKeys) (s : State) : (setBankKeys b ks s).inputs = s.inputs := by cases b <;> rfl
@[simp] theorem setBankKeys_history (b : Bank) (ks : RoundKeys) (s : State) : (setBankKeys b ks s).history = s.history := by cases b <;> rfl
@[simp] theorem setBankKeys_draws (b : Bank) (ks : RoundKeys) (s : State) : (setBankKeys b ks s).draws = s.draws := by cases b <;> rfl

@[simp] theorem raiseError_keyLo (c : CmdError) (s : State) : (raiseError c s).keyLo = s.keyLo := by unfold raiseError; split <;> rfl
@[simp] theorem raiseError_keyHi (c : CmdError) (s : State) : (raiseError c s).keyHi = s.keyHi := by unfold raiseError; split <;> rfl
@[simp] theorem raiseError_dinLo (c : CmdError) (s : State) : (raiseError c s).dinLo = s.dinLo := by unfold raiseError; split <;> rfl
@[simp] theorem raiseError_dinHi (c : CmdError) (s : State) : (raiseError c s).dinHi = s.dinHi := by unfold raiseError; split <;> rfl
@[simp] theorem raiseError_doutLo (c : CmdError) (s : State) : (raiseError c s).doutLo = s.doutLo := by unfold raiseError; split <;> rfl
@[simp] theorem raiseError_doutHi (c : CmdError) (s : State) : (raiseError c s).doutHi = s.doutHi := by unfold raiseError; split <;> rfl
@[simp] theorem raiseError_cksum (c : CmdError) (s : State) : (raiseError c s).cksum = s.cksum := by unfold raiseError; split <;> rfl
@[simp] theorem raiseError_suffix (c : CmdError) (s : State) : (raiseError c s).suffix = s.suffix := by unfold raiseError; split <;> rfl
@[simp] theorem raiseError_invalLo (c : CmdError) (s : State) : (raiseError c s).invalLo = s.invalLo := by unfold raiseError; split <;> rfl
@[simp] theorem raiseError_invalHi (c : CmdError) (s : State) : (raiseError c s).invalHi = s.invalHi := by unfold raiseError; split <;> rfl
@[simp] theorem raiseError_vv (c : CmdError) (s : State) : (raiseError c s).vv = s.vv := by unfold raiseError; split <;> rfl
@[simp] theorem raiseError_kv0 (c : CmdError) (s : State) : (raiseError c s).kv0 = s.kv0 := by unfold raiseError; split <;> rfl
@[simp] theorem raiseError_kv1 (c : CmdError) (s : State) : (raiseError c s).kv1 = s.kv1 := by unfold raiseError; split <;> rfl
@[simp] theorem raiseError_rk0 (c : CmdError) (s : State) : (raiseError c s).rk0 = s.rk0 := by unfold raiseError; split <;> rfl
@[simp] theorem raiseError_rk1 (c : CmdError) (s : State) : (raiseError c s).rk1 = s.rk1 := by unfold raiseError; split <;> rfl
@[simp] theorem raiseError_pend (c : CmdError) (s : State) : (raiseError c s).pend = s.pend := by unfold raiseError; split <;> rfl
@[simp] theorem raiseError_countdown (c : CmdError) (s : State) : (raiseError c s).countdown = s.countdown := by unfold raiseError; split <;> rfl
@[simp] theorem raiseError_inputs (c : CmdError) (s : State) : (raiseError c s).inputs = s.inputs := by unfold raiseError; split <;> rfl
@[simp] theorem raiseError_draws (c : CmdError) (s : State) : (raiseError c s).draws = s.draws := by unfold raiseError; split <;> rfl

@[simp] theorem answerRead_keyLo (off : Offset) (s : State) (r : Option Word) : (answerRead off s r).keyLo = s.keyLo := by cases r <;> rfl
@[simp] theorem answerRead_keyHi (off : Offset) (s : State) (r : Option Word) : (answerRead off s r).keyHi = s.keyHi := by cases r <;> rfl
@[simp] theorem answerRead_dinLo (off : Offset) (s : State) (r : Option Word) : (answerRead off s r).dinLo = s.dinLo := by cases r <;> rfl
@[simp] theorem answerRead_dinHi (off : Offset) (s : State) (r : Option Word) : (answerRead off s r).dinHi = s.dinHi := by cases r <;> rfl
@[simp] theorem answerRead_doutLo (off : Offset) (s : State) (r : Option Word) : (answerRead off s r).doutLo = s.doutLo := by cases r <;> rfl
@[simp] theorem answerRead_doutHi (off : Offset) (s : State) (r : Option Word) : (answerRead off s r).doutHi = s.doutHi := by cases r <;> rfl
@[simp] theorem answerRead_cksum (off : Offset) (s : State) (r : Option Word) : (answerRead off s r).cksum = s.cksum := by cases r <;> rfl
@[simp] theorem answerRead_suffix (off : Offset) (s : State) (r : Option Word) : (answerRead off s r).suffix = s.suffix := by cases r <;> rfl
@[simp] theorem answerRead_invalLo (off : Offset) (s : State) (r : Option Word) : (answerRead off s r).invalLo = s.invalLo := by cases r <;> rfl
@[simp] theorem answerRead_invalHi (off : Offset) (s : State) (r : Option Word) : (answerRead off s r).invalHi = s.invalHi := by cases r <;> rfl
@[simp] theorem answerRead_vv (off : Offset) (s : State) (r : Option Word) : (answerRead off s r).vv = s.vv := by cases r <;> rfl
@[simp] theorem answerRead_kv0 (off : Offset) (s : State) (r : Option Word) : (answerRead off s r).kv0 = s.kv0 := by cases r <;> rfl
@[simp] theorem answerRead_kv1 (off : Offset) (s : State) (r : Option Word) : (answerRead off s r).kv1 = s.kv1 := by cases r <;> rfl
@[simp] theorem answerRead_rk0 (off : Offset) (s : State) (r : Option Word) : (answerRead off s r).rk0 = s.rk0 := by cases r <;> rfl
@[simp] theorem answerRead_rk1 (off : Offset) (s : State) (r : Option Word) : (answerRead off s r).rk1 = s.rk1 := by cases r <;> rfl
@[simp] theorem answerRead_err (off : Offset) (s : State) (r : Option Word) : (answerRead off s r).err = s.err := by cases r <;> rfl
@[simp] theorem answerRead_ecode (off : Offset) (s : State) (r : Option Word) : (answerRead off s r).ecode = s.ecode := by cases r <;> rfl
@[simp] theorem answerRead_pend (off : Offset) (s : State) (r : Option Word) : (answerRead off s r).pend = s.pend := by cases r <;> rfl
@[simp] theorem answerRead_countdown (off : Offset) (s : State) (r : Option Word) : (answerRead off s r).countdown = s.countdown := by cases r <;> rfl
@[simp] theorem answerRead_inputs (off : Offset) (s : State) (r : Option Word) : (answerRead off s r).inputs = s.inputs := by cases r <;> rfl

end Sys2Proof.Machine
end

