-- ==== Sys2Proof/Laws/Ops.lean ====
section
/-!
SUPPORT. What the shared operations over slices, banks and errors do, one lemma for each fact.
-/

namespace Sys2Proof.Machine

/-- The bits of a concatenation (R8). -/
theorem joinWords_getLsbD (hi lo : Word) (i : Nat) :
    (joinWords hi lo).getLsbD i = if i < 32 then lo.getLsbD i else hi.getLsbD (i - 32) := BitVec.getLsbD_append

@[simp] theorem lowWord_joinWords (hi lo : Word) : lowWord (joinWords hi lo) = lo :=
  BitVec.eq_of_getLsbD_eq fun i h => by simp [lowWord, joinWords_getLsbD, h]

@[simp] theorem highWord_joinWords (hi lo : Word) : highWord (joinWords hi lo) = hi :=
  BitVec.eq_of_getLsbD_eq fun i h => by simp [highWord, joinWords_getLsbD, h]

@[simp] theorem joinWords_highWord_lowWord (v : Block) : joinWords (highWord v) (lowWord v) = v :=
  BitVec.eq_of_getLsbD_eq fun i h => by
    simp only [joinWords_getLsbD, highWord, lowWord, BitVec.getLsbD_extractLsb']
    split
    · simp_all
    · simp [show 32 + (i - 32) = i by omega, show i - 32 < 32 by omega]

@[simp] theorem doutBlock_writeDout (y : Block) (s : State) : doutBlock (writeDout y s) = y := by
  simp [doutBlock]

@[simp] theorem invalBlock_writeInval (iv : Block) (s : State) : invalBlock (writeInval iv s) = iv := by
  simp [invalBlock]

@[simp] theorem bankKeys_setBankKeys_same (b : Bank) (ks : RoundKeys) (s : State) :
    bankKeys (setBankKeys b ks s) b = ks := by cases b <;> rfl

theorem bankKeys_setBankKeys_other {b c : Bank} (h : c ≠ b) (ks : RoundKeys) (s : State) :
    bankKeys (setBankKeys b ks s) c = bankKeys s c := by
  cases b <;> cases c <;> first | rfl | exact absurd rfl h

@[simp] theorem bankValid_setBankKeys (b c : Bank) (ks : RoundKeys) (s : State) :
    bankValid (setBankKeys b ks s) c = bankValid s c := by cases b <;> cases c <;> rfl

@[simp] theorem bankValid_setBankValid_same (b : Bank) (s : State) : bankValid (setBankValid b s) b = true := by
  cases b <;> rfl

theorem bankValid_setBankValid_other {b c : Bank} (h : c ≠ b) (s : State) :
    bankValid (setBankValid b s) c = bankValid s c := by
  cases b <;> cases c <;> first | rfl | exact absurd rfl h

@[simp] theorem bankKeys_setBankValid (b c : Bank) (s : State) : bankKeys (setBankValid b s) c = bankKeys s c := by
  cases b <;> cases c <;> rfl

/-- A bank is read from four fields only. -/
theorem bankValid_congr {s t : State} (h0 : t.kv0 = s.kv0) (h1 : t.kv1 = s.kv1) (b : Bank) :
    bankValid t b = bankValid s b := by cases b <;> simp [bankValid, h0, h1]

theorem bankKeys_congr {s t : State} (h0 : t.rk0 = s.rk0) (h1 : t.rk1 = s.rk1) (b : Bank) :
    bankKeys t b = bankKeys s b := by cases b <;> simp [bankKeys, h0, h1]

@[simp] theorem latchedOperands_of_pend {s : State} {p : Pending} (h : s.pend = some p) :
    latchedOperands s = p.ops := by simp [latchedOperands, h]

/-- The first error is kept (R202). -/
theorem raiseError_of_clear {s : State} (h : s.err = false) (c : CmdError) :
    (raiseError c s).err = true ∧ (raiseError c s).ecode = errorCode c := by simp [raiseError, h]

theorem raiseError_of_set {s : State} (h : s.err = true) (c : CmdError) :
    (raiseError c s).err = true ∧ (raiseError c s).ecode = s.ecode := by simp [raiseError, h]

/-- Every refusal enters the history, whether or not ERR was set (R202). -/
@[simp] theorem raiseError_history (c : CmdError) (s : State) :
    (raiseError c s).history = .refused c :: s.history := by unfold raiseError; split <;> rfl

/-- The bits of STATUS (R23). -/
theorem statusWord_getLsbD (s : State) (j : Nat) : (statusWord s).getLsbD j =
    if j = 0 then busy s else if j = 1 then s.kv0 else if j = 2 then s.kv1 else if j = 3 then s.err
    else if j < 8 then s.ecode.getLsbD (j - 4) else false := by
  have e : statusWord s = (((((0#24 ++ s.ecode : BitVec 28) ++ BitVec.ofBool s.err : BitVec 29)
    ++ BitVec.ofBool s.kv1 : BitVec 30) ++ BitVec.ofBool s.kv0 : BitVec 31) ++ BitVec.ofBool (busy s) : BitVec 32) := rfl
  rw [e, append_bit 31 1, append_bit 30 1, append_bit 29 1, append_bit 28 1, append_bit 24 4]
  rcases j with _ | _ | _ | _ | j
  · simp
  · simp
  · simp
  · simp
  · simp
    by_cases h : j < 4
    · simp [h, show j + 4 < 8 by omega]
    · simp [h, show ¬ j + 4 < 8 by omega]

/-- Zero extension of a byte, as a change of width (R10). -/
theorem zext32_eq_setWidth (v : Byte) : zext32 v = v.setWidth 32 := by
  apply BitVec.eq_of_getLsbD_eq
  intro i hi
  have e : zext32 v = (0#24 ++ v : BitVec 32) := rfl
  rw [e, append_bit 24 8]
  by_cases h : i < 8
  · simp [h, hi]
  · simp only [h, if_false]
    simp [BitVec.getLsbD_of_ge v i (by omega)]

end Sys2Proof.Machine
end

