-- ==== Sys2Proof/Laws/Bus.lean ====
section
/-!
SUPPORT. Everything the host's operations can do: one inversion lemma for each.
-/

namespace Sys2Proof.Machine

/-- A command write either records one error and nothing else, or latches the command that its word decodes to while
nothing is pending (R200). -/
theorem accept_cases (w : Word) (s : State) :
    (∃ c, accept w s = raiseError c s) ∨
    (∃ i, decode w = .cmd i ∧ s.pend = none ∧ (needsKey i = true → bankValid s i.fields.bank = true) ∧
      accept w s = latchCommand i s) := by
  unfold accept
  split
  · exact .inl ⟨_, rfl⟩
  · next hb =>
    split
    · exact .inl ⟨_, rfl⟩
    · next i hd =>
      split
      · exact .inl ⟨_, rfl⟩
      · next hk => exact .inr ⟨i, hd, by simpa [busy] using hb, by simpa using hk, rfl⟩

/-- A command that decoding yields is well-formed. -/
theorem decode_wellFormed {w : Word} {i : Instr} (h : decode w = .cmd i) : i.wellFormed = true := by
  unfold decode at h
  split at h
  · cases h
  · split at h
    · cases h
    · split at h
      · cases h; assumption
      · cases h

/-- A read answers unless the access is bad (R52). -/
theorem hostRead_next {off : Offset} {n : Nat} {s t : State} (h : hostRead off n s = .next t) :
    accessOk off n = true ∧ t = answerRead off s (readValue s (regAt off)) := by
  unfold hostRead at h
  split at h
  · cases h; exact ⟨‹_›, rfl⟩
  · cases h

/-- A write acts on its register unless the access is bad (R52, R57). -/
theorem hostWrite_next {off : Offset} {n : Nat} {v : Word} {s t : State} (h : hostWrite off n v s = .next t) :
    accessOk off n = true ∧ t = writeReg v s (regAt off) := by
  unfold hostWrite at h
  split at h
  · cases h; exact ⟨‹_›, rfl⟩
  · cases h

/-- A read adds one entry to the history. -/
theorem answerRead_history (off : Offset) (s : State) (r : Option Word) :
    ∃ v, (answerRead off s r).history = .readReturned off v :: s.history := by
  cases r <;> exact ⟨_, rfl⟩

/-- A poll is a read of STATUS that may put itself back into the inputs (R90). -/
theorem pollStatus_cases (s : State) :
    pollStatus s = answerRead statusOffset s (some (statusWord s)) ∨
    pollStatus s = { answerRead statusOffset s (some (statusWord s)) with inputs := .wait :: s.inputs } := by
  unfold pollStatus
  dsimp only [readValue]
  split
  · exact .inr (by rw [answerRead_inputs])
  · exact .inl rfl

/-- The check of ERR is a read of STATUS that may end the host's program (R90). -/
theorem requireNoError_cases (s : State) :
    ((statusWord s).getLsbD 3 = false ∧ requireNoError s = answerRead statusOffset s (some (statusWord s))) ∨
    ((statusWord s).getLsbD 3 = true ∧ requireNoError s =
      { answerRead statusOffset s (some (statusWord s)) with inputs := s.inputs.filter (· == .reset) }) := by
  unfold requireNoError
  dsimp only [readValue]
  split
  · exact .inr ⟨‹_›, by rw [answerRead_inputs]⟩
  · exact .inl ⟨(Bool.not_eq_true _).mp ‹_›, rfl⟩

/-- A step of the host is idle or does its next action. -/
theorem hostStep_cases {s t : State} (h : hostStep s = .next t) :
    (s.inputs = [] ∧ t = s) ∨
    (∃ a rest, s.inputs = a :: rest ∧ applyInput (takeInput rest s) a = .next t) := by
  unfold hostStep at h
  split at h
  · cases h; exact .inl ⟨‹_›, rfl⟩
  · exact .inr ⟨_, _, ‹_›, h⟩

/-- A 32-bit read at a multiple of 4 answers with the register's value (R52, R56). -/
theorem hostRead_at {off : Offset} {s : State} (h : off.toNat % 4 = 0) :
    hostRead off 4 s = .next (answerRead off s (readValue s (regAt off))) := by
  simp [hostRead, accessOk, h]

/-- A 32-bit write at a multiple of 4 acts on the register (R52, R57). -/
theorem hostWrite_at {off : Offset} {v : Word} {s : State} (h : off.toNat % 4 = 0) :
    hostWrite off 4 v s = .next (writeReg v s (regAt off)) := by
  simp [hostWrite, accessOk, h]

/-- The place of each round-key word of bank 0 (R21). -/
theorem regAt_rk0 (k : Fin 26) : regAt (BitVec.ofNat 12 (0x100 + 4 * k.val)) = .rk .bank0 k ∧
    (BitVec.ofNat 12 (0x100 + 4 * k.val)).toNat % 4 = 0 := by
  revert k; decide

/-- The place of each round-key word of bank 1 (R21). -/
theorem regAt_rk1 (k : Fin 26) : regAt (BitVec.ofNat 12 (0x200 + 4 * k.val)) = .rk .bank1 k ∧
    (BitVec.ofNat 12 (0x200 + 4 * k.val)).toNat % 4 = 0 := by
  revert k; decide

/-- A lookup answers with an entry of the list. -/
theorem mem_of_lookup {l : List (Nat × Reg)} {n : Nat} {q : Reg} (h : l.lookup n = some q) : (n, q) ∈ l := by
  induction l with
  | nil => cases h
  | cons x l ih =>
    obtain ⟨a, b⟩ := x
    simp only [List.lookup] at h
    split at h
    · next hh => cases h; simp at hh; subst hh; simp
    · exact List.mem_cons_of_mem _ (ih h)

/-- A named register that is no round-key word stands where the map says (R21). -/
theorem regAt_named {off : Offset} {r : Reg} (h : regAt off = r) (hr : r ≠ .reserved) (hk : ∀ b k, r ≠ .rk b k) :
    (off.toNat, r) ∈ regMap := by
  unfold regAt at h
  dsimp only at h
  split at h
  · exact absurd h.symm (hk _ _)
  split at h
  · exact absurd h.symm (hk _ _)
  · cases hl : regMap.lookup off.toNat with
    | none => rw [hl] at h; exact absurd h.symm hr
    | some q => rw [hl] at h; simp at h; subst h; exact mem_of_lookup hl

end Sys2Proof.Machine
end

