-- ==== Sys2Proof/Laws/Step.lean ====
section
/-!
SUPPORT. Everything one step of the machine can do.
-/

namespace Sys2Proof.Machine

/-- A step completes the pending command, or idles, or does the host's next action (R20, R100). -/
theorem step_cases {s t : State} (h : step s = .next t) :
    (∃ p, s.pend = some p ∧ sequencerTurn s = true ∧ exec p.cmd s = .next t) ∨
    (s.inputs = [] ∧ t = s) ∨
    (∃ a rest, s.inputs = a :: rest ∧ applyInput (takeInput rest s) a = .next t) := by
  unfold step at h
  split at h
  · exact .inr (hostStep_cases h)
  · next p hp =>
    split at h
    · exact .inl ⟨p, hp, ‹_›, h⟩
    · exact .inr (hostStep_cases h)

/-- While a command is pending and it is not the sequencer's turn, the host acts. -/
theorem step_of_not_turn {s : State} (h : sequencerTurn s = false) : step s = hostStep s := by
  unfold step
  split
  · rfl
  · simp [h]

/-- Every completion answers a next state (R100). -/
theorem exec_answers (i : Instr) (s : State) : ∃ t, exec i s = .next t := by cases i <;> exact ⟨_, rfl⟩

/-- No completion touches the errors or the model's own fields (R100). -/
theorem exec_keeps {i : Instr} {s t : State} (h : exec i s = .next t) :
    t.err = s.err ∧ t.ecode = s.ecode ∧ t.history = s.history ∧ t.inputs = s.inputs ∧ t.draws = s.draws ∧
      t.countdown = s.countdown := by
  cases i <;> cases h <;> simp

end Sys2Proof.Machine
end

