-- ==== Sys2Proof/Laws/Derive.lean ====
section
/-!
SUPPORT. The host procedure on the machine (30_encoding.md R90, 44_license.md R175): what each pseudo-instruction does
when it is run, and that the program DERIVE reads back the result that `deriveChars` computes.
-/

namespace Sys2Proof.Machine

/-- `offsetOf` gives the place at which the map has the register, always a multiple of 4 (R21). -/
theorem regAt_offsetOf (r : Reg) : regAt (offsetOf r) = r ∧ (offsetOf r).toNat % 4 = 0 := by
  cases r with
  | rk b k => cases b <;> [exact regAt_rk0 k; exact regAt_rk1 k]
  | _ => decide

/-- The state `t` is reached from `s` by steps that all answer. -/
def Reaches (s t : State) : Prop := ∃ n, runSteps n s = .next t

theorem Reaches.refl (s : State) : Reaches s s := ⟨0, rfl⟩

theorem Reaches.head {s u t : State} (h : step s = .next u) (g : Reaches u t) : Reaches s t := by
  obtain ⟨n, hn⟩ := g
  exact ⟨n + 1, by rw [runSteps, h]; exact hn⟩

theorem Reaches.trans {s u t : State} (h : Reaches s u) (g : Reaches u t) : Reaches s t := by
  obtain ⟨n, hn⟩ := h
  induction n generalizing s with
  | zero => cases hn; exact g
  | succ n ih =>
    rw [runSteps] at hn
    split at hn
    · exact .head ‹_› (ih hn)
    · cases hn
    · cases hn

/-- The registers, with the model's own fields blanked out. -/
def regsOf (s : State) : State := { s with countdown := 0, inputs := [], history := [], draws := 0 }

/-- The machine's registers agree: only the model's own fields may differ. -/
def SameRegs (s t : State) : Prop := regsOf s = regsOf t

theorem SameRegs.trans {s t u : State} (h : SameRegs s t) (g : SameRegs t u) : SameRegs s u := Eq.trans h g

theorem SameRegs.pend {s t : State} (h : SameRegs s t) : s.pend = t.pend :=
  congrArg (a₁ := regsOf s) (a₂ := regsOf t) State.pend h
theorem SameRegs.err {s t : State} (h : SameRegs s t) : s.err = t.err :=
  congrArg (a₁ := regsOf s) (a₂ := regsOf t) State.err h
theorem SameRegs.kv0 {s t : State} (h : SameRegs s t) : s.kv0 = t.kv0 :=
  congrArg (a₁ := regsOf s) (a₂ := regsOf t) State.kv0 h
theorem SameRegs.kv1 {s t : State} (h : SameRegs s t) : s.kv1 = t.kv1 :=
  congrArg (a₁ := regsOf s) (a₂ := regsOf t) State.kv1 h
theorem SameRegs.rk0 {s t : State} (h : SameRegs s t) : s.rk0 = t.rk0 :=
  congrArg (a₁ := regsOf s) (a₂ := regsOf t) State.rk0 h
theorem SameRegs.rk1 {s t : State} (h : SameRegs s t) : s.rk1 = t.rk1 :=
  congrArg (a₁ := regsOf s) (a₂ := regsOf t) State.rk1 h
theorem SameRegs.cksum {s t : State} (h : SameRegs s t) : s.cksum = t.cksum :=
  congrArg (a₁ := regsOf s) (a₂ := regsOf t) State.cksum h
theorem SameRegs.vv {s t : State} (h : SameRegs s t) : s.vv = t.vv :=
  congrArg (a₁ := regsOf s) (a₂ := regsOf t) State.vv h
theorem SameRegs.doutHi {s t : State} (h : SameRegs s t) : s.doutHi = t.doutHi :=
  congrArg (a₁ := regsOf s) (a₂ := regsOf t) State.doutHi h
theorem SameRegs.doutLo {s t : State} (h : SameRegs s t) : s.doutLo = t.doutLo :=
  congrArg (a₁ := regsOf s) (a₂ := regsOf t) State.doutLo h

/-- A completion does not depend on the model's own fields. -/
theorem exec_regsOf {i : Instr} {s t : State} (h : exec i s = .next t) : exec i (regsOf s) = .next (regsOf t) := by
  cases i <;> (rename_i f; obtain ⟨b, k, imm⟩ := f; cases h; cases b <;> rfl)

theorem exec_sameRegs {i : Instr} {s s' t t' : State} (e : SameRegs s' s) (h : exec i s = .next t)
    (h' : exec i s' = .next t') : SameRegs t' t := by
  have g := exec_regsOf h'
  rw [show regsOf s' = regsOf s from e, exec_regsOf h] at g
  exact (Host.Outcome.next.inj g).symm

/-- Every completion clears the latch (R100). -/
theorem exec_pend {i : Instr} {s t : State} (h : exec i s = .next t) : t.pend = none := by cases i <;> cases h <;> rfl

/-- With nothing pending, the step is the host's next action. -/
theorem step_idle {s : State} {a : Input} {rest : List Input} (hp : s.pend = none) (hi : s.inputs = a :: rest) :
    step s = applyInput (takeInput rest s) a := by simp [step, hostStep, hp, hi]

/-- `wr REG, v` with nothing pending (R90). -/
theorem step_wr {s : State} {r : Reg} {v : Word} {rest : List Input} (hp : s.pend = none)
    (hi : s.inputs = wrInput r v :: rest) : step s = .next (writeReg v (takeInput rest s) r) := by
  rw [step_idle hp hi]
  exact (hostWrite_at (regAt_offsetOf r).2).trans (by rw [(regAt_offsetOf r).1])

/-- `rd REG` with nothing pending (R90). -/
theorem step_rd {s : State} {r : Reg} {rest : List Input} (hp : s.pend = none) (hi : s.inputs = rdInput r :: rest) :
    step s = .next (answerRead (offsetOf r) (takeInput rest s) (readValue (takeInput rest s) r)) := by
  rw [step_idle hp hi]
  exact (hostRead_at (regAt_offsetOf r).2).trans (by rw [(regAt_offsetOf r).1])

/-- `wait` behind a pending command (R90, R242): it comes to the command's completion, with itself still to do. -/
theorem wait_completes {s u : State} {p : Pending} {rest : List Input} (hp : s.pend = some p)
    (hi : s.inputs = .wait :: rest) (hu : exec p.cmd s = .next u) :
    ∃ t, Reaches s t ∧ SameRegs t u ∧ t.inputs = .wait :: rest := by
  obtain ⟨n, hn⟩ : ∃ n, s.countdown = n := ⟨_, rfl⟩
  induction n generalizing s u with
  | zero =>
    have hs : step s = .next u := by simp [step, hp, sequencerTurn, hn, hu]
    exact ⟨u, .head hs (.refl u), rfl, by rw [(exec_keeps hu).2.2.2.1, hi]⟩
  | succ n ih =>
    have hs : step s = .next (pollStatus (takeInput rest s)) := by
      rw [step_of_not_turn (by simp [sequencerTurn, hn, hi]), hostStep, hi]
      rfl
    have hb : (statusWord (takeInput rest s)).getLsbD 0 = true := by
      rw [statusWord_getLsbD]
      simp [busy, hp]
    have hq : pollStatus (takeInput rest s) =
        { answerRead statusOffset (takeInput rest s) (some (statusWord (takeInput rest s)))
          with inputs := .wait :: rest } := by
      unfold pollStatus
      rw [if_pos hb]
      rfl
    rw [hq] at hs
    have e : SameRegs { answerRead statusOffset (takeInput rest s) (some (statusWord (takeInput rest s)))
        with inputs := .wait :: rest } s := rfl
    obtain ⟨u', hu'⟩ := exec_answers p.cmd { answerRead statusOffset (takeInput rest s)
      (some (statusWord (takeInput rest s))) with inputs := .wait :: rest }
    obtain ⟨t, ht, hr, hti⟩ := ih (e.pend.trans hp) rfl hu' (by simp [hn])
    exact ⟨t, .head hs ht, hr.trans (exec_sameRegs e hu hu'), hti⟩

theorem sameRegs_takeInput (rest : List Input) (s : State) : SameRegs (takeInput rest s) s := rfl

theorem sameRegs_answerRead (off : Offset) (s : State) (r : Option Word) : SameRegs (answerRead off s r) s := by
  cases r <;> rfl

/-- `wait` with nothing pending is over (R90). -/
theorem step_wait_idle {s : State} {rest : List Input} (hp : s.pend = none) (hi : s.inputs = .wait :: rest) :
    ∃ t, step s = .next t ∧ SameRegs t s ∧ t.inputs = rest := by
  have h0 : (statusWord (takeInput rest s)).getLsbD 0 = false := by
    rw [statusWord_getLsbD]
    simp [busy, hp]
  have hs : step s = .next (pollStatus (takeInput rest s)) := step_idle hp hi
  rw [pollStatus, if_neg (by rw [h0]; exact Bool.false_ne_true)] at hs
  exact ⟨_, hs, (sameRegs_answerRead _ _ _).trans (sameRegs_takeInput rest s), answerRead_inputs _ _ _⟩

/-- The requirement of `run` is met with ERR = 0 (R90). -/
theorem step_require_passes {s : State} {rest : List Input} (hp : s.pend = none) (he : s.err = false)
    (hi : s.inputs = .require :: rest) : ∃ t, step s = .next t ∧ SameRegs t s ∧ t.inputs = rest := by
  have h3 : (statusWord (takeInput rest s)).getLsbD 3 = false := by
    rw [statusWord_getLsbD]
    simp [he]
  have hs : step s = .next (requireNoError (takeInput rest s)) := step_idle hp hi
  rcases requireNoError_cases (takeInput rest s) with ⟨_, g⟩ | ⟨g, _⟩
  · rw [g] at hs
    exact ⟨_, hs, (sameRegs_answerRead _ _ _).trans (sameRegs_takeInput rest s), answerRead_inputs _ _ _⟩
  · rw [h3] at g
    cases g

/-- `run CMD` from an idle block without an error (R90): the command is accepted and completed, and the program goes on
behind it. -/
theorem run_completes {i : Instr} {s u : State} {rest : List Input} (hd : decode (encode i) = .cmd i)
    (hp : s.pend = none) (he : s.err = false) (hk : needsKey i = true → bankValid s i.fields.bank = true)
    (hi : s.inputs = runInputs i ++ rest)
    (hu : exec i { s with pend := some { cmd := i, ops := captureOperands s } } = .next u) :
    ∃ t, Reaches s t ∧ SameRegs t u ∧ t.inputs = rest := by
  have h1 : step s = .next (latchCommand i (takeInput (.wait :: .require :: rest) s)) := by
    rw [step_wr (rest := .wait :: .require :: rest) hp hi]
    have hkv : bankValid (takeInput (.wait :: .require :: rest) s) i.fields.bank = bankValid s i.fields.bank :=
      bankValid_congr rfl rfl _
    simp only [writeReg, accept, busy, takeInput_pend, hp, hd, hkv]
    cases hn : needsKey i with
    | false => rfl
    | true => rw [hk hn]; rfl
  obtain ⟨u', hu'⟩ := exec_answers i (latchCommand i (takeInput (.wait :: .require :: rest) s))
  have e : SameRegs (latchCommand i (takeInput (.wait :: .require :: rest) s))
      { s with pend := some { cmd := i, ops := captureOperands s } } := rfl
  have e1 : SameRegs u' u := exec_sameRegs e hu hu'
  obtain ⟨t1, ht1, r1, i1⟩ := wait_completes (s := latchCommand i (takeInput (.wait :: .require :: rest) s)) rfl rfl hu'
  have p1 : t1.pend = none := r1.pend.trans (exec_pend hu')
  have err1 : t1.err = false := (r1.trans e1).err.trans ((exec_keeps hu).1.trans he)
  obtain ⟨t2, h2, r2, i2⟩ := step_wait_idle p1 i1
  obtain ⟨t3, h3, r3, i3⟩ := step_require_passes (r2.pend.trans p1) (r2.err.trans err1) i2
  exact ⟨t3, .head h1 (ht1.trans (.head h2 (.head h3 (.refl t3)))), r3.trans (r2.trans (r1.trans e1)), i3⟩

/-- The registers a derivation relies on between its commands: both banks keyed, no error, and `n` in CKSUM (R175). -/
structure Deriving (n : Word) (s : State) : Prop where
  pend : s.pend = none
  err : s.err = false
  kv0 : s.kv0 = true
  kv1 : s.kv1 = true
  rk0 : s.rk0 = keySchedule nameKey
  rk1 : s.rk1 = keySchedule licenseKey
  cksum : s.cksum = n

/-- A bank written, marked valid, and the latch cleared. -/
theorem retire_keyed0 (ks : RoundKeys) (s : State) : retire (setBankValid .bank0 (setBankKeys .bank0 ks s)) =
    { s with rk0 := ks, kv0 := true, pend := none } := rfl

theorem retire_keyed1 (ks : RoundKeys) (s : State) : retire (setBankValid .bank1 (setBankKeys .bank1 ks s)) =
    { s with rk1 := ks, kv1 := true, pend := none } := rfl

/-- `run KSETUP` (R90, R110). -/
theorem ksetup_runs {f : Fields} {s : State} {rest : List Input} (hd : decode (encode (.ksetup f)) = .cmd (.ksetup f))
    (hp : s.pend = none) (he : s.err = false) (hi : s.inputs = runInputs (.ksetup f) ++ rest) :
    ∃ t, Reaches s t ∧ t.inputs = rest ∧ SameRegs t (retire (setBankValid f.bank (setBankKeys f.bank
      (keySchedule (masterKey f.ksrc (captureOperands s)))
      { s with pend := some { cmd := .ksetup f, ops := captureOperands s } }))) := by
  obtain ⟨t, h, r, i⟩ := run_completes hd hp he (fun h => absurd h (Bool.false_ne_true)) hi rfl
  exact ⟨t, h, i, r⟩

/-- The first three runs of DERIVE (R175): both banks keyed, CKSUM 0. -/
theorem keying_runs {s : State} {rest : List Input} (hp : s.pend = none) (he : s.err = false)
    (hi : s.inputs = runInputs (.ksetup { plainFields .bank0 with ksrc := .name }) ++
      (runInputs (.ksetup { plainFields .bank1 with ksrc := .license }) ++
      (runInputs (.ckclr (plainFields .bank0)) ++ rest))) :
    ∃ t, Reaches s t ∧ Deriving 0 t ∧ t.inputs = rest := by
  obtain ⟨t1, h1, i1, r1⟩ := ksetup_runs (by decide) hp he hi
  simp only [plainFields, masterKey, retire_keyed0] at r1
  have e1 : t1.err = false := r1.err.trans he
  obtain ⟨t2, h2, i2, r2⟩ := ksetup_runs (by decide) r1.pend e1 i1
  simp only [plainFields, masterKey, retire_keyed1] at r2
  have e2 : t2.err = false := r2.err.trans e1
  obtain ⟨t3, h3, r3, i3⟩ := run_completes (i := .ckclr (plainFields .bank0))
    (u := { t2 with cksum := 0, pend := none }) (by decide) r2.pend e2 (fun h => absurd h (by decide)) i2 rfl
  exact ⟨t3, h1.trans (h2.trans h3), ⟨r3.pend, r3.err.trans e2, r3.kv0.trans (r2.kv0.trans r1.kv0),
    r3.kv1.trans r2.kv1, r3.rk0.trans (r2.rk0.trans r1.rk0), r3.rk1.trans r2.rk1, r3.cksum⟩, i3⟩

/-- One turn of the block loop (R175, R177): CKSUM takes in the block's ciphertext. -/
theorem block_runs {s : State} {n : Word} {x : Block} {rest : List Input} (h : Deriving n s)
    (hi : s.inputs = blockInputs x ++ rest) :
    ∃ t, Reaches s t ∧ Deriving (foldBytes n (bytesOf (encrypt (keySchedule nameKey) x))) t ∧ t.inputs = rest := by
  let i := Instr.encfold (plainFields .bank0)
  let s1 := writeReg (highWord x) (takeInput (wrInput .dinLo (lowWord x) :: (runInputs i ++ rest)) s) .dinHi
  let s2 := writeReg (lowWord x) (takeInput (runInputs i ++ rest) s1) .dinLo
  have h1 : step s = .next s1 := step_wr h.pend hi
  have h2 : step s1 = .next s2 := step_wr h.pend rfl
  have hx : captureOperands s2 = { key := keyBlock s, din := x, suffix := s.suffix } := by
    show ({ key := keyBlock s, din := joinWords (highWord x) (lowWord x), suffix := s.suffix } : Latched) = _
    rw [joinWords_highWord_lowWord]
  obtain ⟨t, h3, r, i3⟩ := run_completes (i := i) (s := s2) (rest := rest) (u := retire (writeCksum
      (foldBytes s.cksum (bytesOf (encrypt s.rk0 x))) (writeDout (encrypt s.rk0 x) s2)))
    (by decide) h.pend h.err (fun _ => h.kv0) rfl (by rw [hx]; rfl)
  refine ⟨t, .head h1 (.head h2 h3), ⟨r.pend, r.err.trans h.err, r.kv0.trans h.kv0, r.kv1.trans h.kv1,
    r.rk0.trans h.rk0, r.rk1.trans h.rk1, r.cksum.trans ?_⟩, i3⟩
  show foldBytes s.cksum (bytesOf (encrypt s.rk0 x)) = _
  rw [h.cksum, h.rk0]

/-- The block loop (R175, R177): CKSUM takes in the whole cipher stream, in order. -/
theorem blocks_run {s : State} {n : Word} {xs : List Block} {rest : List Input} (h : Deriving n s)
    (hi : s.inputs = xs.flatMap blockInputs ++ rest) :
    ∃ t, Reaches s t ∧
      Deriving (foldBytes n (xs.flatMap fun x => bytesOf (encrypt (keySchedule nameKey) x))) t ∧ t.inputs = rest := by
  induction xs generalizing s n with
  | nil => exact ⟨s, .refl s, h, hi⟩
  | cons x xs ih =>
    obtain ⟨t1, h1, d1, i1⟩ := block_runs (rest := xs.flatMap blockInputs ++ rest) h
      (by rw [hi, List.flatMap_cons, List.append_assoc])
    obtain ⟨t, h2, d2, i2⟩ := ih d1 i1
    refine ⟨t, h1.trans h2, ?_, i2⟩
    rw [List.flatMap_cons, foldBytes, List.foldl_append]
    exact d2

/-- The low byte of a zero-extended byte (R10). -/
theorem zext32_low (v : Byte) : (zext32 v).extractLsb' 0 8 = v := by
  rw [zext32_eq_setWidth]
  apply BitVec.eq_of_getLsbD_eq
  intro i hi
  simp [hi, show i < 32 by omega]

/-- `rd REG` of a value that is not free: nothing changes but the host's record of it (R56, R90). -/
theorem step_rd_plain {s : State} {r : Reg} {v : Word} {rest : List Input} (hp : s.pend = none)
    (hv : readValue s r = some v) (hi : s.inputs = rdInput r :: rest) :
    ∃ t, step s = .next t ∧ SameRegs t s ∧ t.inputs = rest ∧ t.history = .readReturned (offsetOf r) v :: s.history := by
  have e : readValue (takeInput rest s) r = some v := hv
  exact ⟨answerRead (offsetOf r) (takeInput rest s) (some v), by rw [step_rd hp hi, e],
    (sameRegs_answerRead _ _ _).trans (sameRegs_takeInput rest s), rfl, rfl⟩

/-- The value of the read just made (R90). -/
theorem rdValue_read (r : Reg) (v : Word) (h : List Event) :
    rdValue r (.readReturned (offsetOf r) v :: h) = some (v, h) := if_pos rfl

/-- The value of the pair of reads just made (R90). -/
theorem rd64Value_reads (p : RegPair) (hi lo : Word) (h : List Event) :
    rd64Value p (.readReturned (offsetOf (pairLo p)) lo :: .readReturned (offsetOf (pairHi p)) hi :: h) =
      some (joinWords hi lo, h) := by
  simp only [rd64Value, rdValue_read]

/-- The text made of the last three reads of DERIVE (R175). -/
theorem derivedText_reads (v hi lo : Word) (h : List Event) :
    derivedText (.readReturned (offsetOf .doutLo) lo :: .readReturned (offsetOf .doutHi) hi ::
      .readReturned (offsetOf .vv) v :: h) = some (hex2 (v.extractLsb' 0 8) ++ hex16 (joinWords hi lo)) := by
  have e : rd64Value .dout (.readReturned (offsetOf .doutLo) lo :: .readReturned (offsetOf .doutHi) hi ::
      .readReturned (offsetOf .vv) v :: h) = some (joinWords hi lo, .readReturned (offsetOf .vv) v :: h) :=
    rd64Value_reads .dout hi lo _
  simp only [derivedText, e, rdValue_read]

/-- The end of DERIVE (R175): SUFFIX, LICASM and the three reads, whose values make up the text. -/
theorem licasm_runs {s : State} {n suffix : Word} (h : Deriving n s)
    (hi : s.inputs = wrInput .suffix suffix :: (runInputs (.licasm (plainFields .bank1)) ++
      (rdInput .vv :: rd64Inputs .dout))) :
    ∃ t, Reaches s t ∧ t.inputs = [] ∧ t.pend = none ∧ t.err = false ∧
      derivedText t.history = some (hex2 (abs8 (xorFold8 (candidate n suffix))) ++
        hex16 (decrypt (keySchedule licenseKey) (candidate n suffix))) := by
  let i := Instr.licasm (plainFields .bank1)
  let s1 := writeReg suffix (takeInput (runInputs i ++ (rdInput .vv :: rd64Inputs .dout)) s) .suffix
  have h1 : step s = .next s1 := step_wr h.pend hi
  let iv := candidate s.cksum suffix
  let s2 := { s1 with pend := some { cmd := i, ops := captureOperands s1 } }
  obtain ⟨t, h2, r, i2⟩ := run_completes (i := i) (s := s1) (rest := rdInput .vv :: rd64Inputs .dout)
    (u := retire (writeVv (abs8 (xorFold8 iv)) (writeDout (decrypt s.rk1 iv) (writeInval iv s2))))
    (by decide) h.pend h.err (fun _ => h.kv1) rfl rfl
  have hv : t.vv = abs8 (xorFold8 (candidate n suffix)) := by
    rw [r.vv, ← h.cksum, retire_vv, writeVv_vv]
  have hhi : t.doutHi = highWord (decrypt (keySchedule licenseKey) (candidate n suffix)) := by
    rw [r.doutHi, ← h.cksum, ← h.rk1, retire_doutHi, writeVv_doutHi, writeDout_doutHi]
  have hlo : t.doutLo = lowWord (decrypt (keySchedule licenseKey) (candidate n suffix)) := by
    rw [r.doutLo, ← h.cksum, ← h.rk1, retire_doutLo, writeVv_doutLo, writeDout_doutLo]
  have hp : t.pend = none := r.pend
  have he : t.err = false := r.err.trans h.err
  obtain ⟨t1, g1, q1, j1, l1⟩ := step_rd_plain (v := zext32 t.vv) hp (by simp [readValue, resultValue, busy, hp]) i2
  have p1 := q1.pend.trans hp
  obtain ⟨t2, g2, q2, j2, l2⟩ := step_rd_plain (r := .doutHi) (v := t.doutHi) p1
    (by simp [readValue, resultValue, busy, p1, q1.doutHi]) j1
  have p2 := q2.pend.trans p1
  obtain ⟨t3, g3, q3, j3, l3⟩ := step_rd_plain (r := .doutLo) (v := t.doutLo) p2
    (by simp [readValue, resultValue, busy, p2, q2.doutLo, q1.doutLo]) j2
  refine ⟨t3, .head h1 (h2.trans (.head g1 (.head g2 (.head g3 (.refl t3))))), j3, q3.pend.trans p2,
    (q3.trans (q2.trans q1)).err.trans he, ?_⟩
  rw [l3, l2, l1, derivedText_reads, zext32_low, hv, hhi, hlo, joinWords_highWord_lowWord]

/-- DERIVE on the machine (R175): from any state with nothing pending and no error, the host's program comes to its end
with no error, and the text made of the VV and DOUT it read is the one `deriveChars` computes. -/
theorem derive_runs (m : List Byte) (suffix : Word) {s : State} (hp : s.pend = none) (he : s.err = false)
    (hi : s.inputs = deriveInputs m suffix) :
    ∃ t, Reaches s t ∧ t.inputs = [] ∧ t.pend = none ∧ t.err = false ∧
      derivedText t.history = some (deriveChars m suffix) := by
  obtain ⟨t1, h1, d1, i1⟩ := keying_runs (rest := (blocksOf (padName m)).flatMap blockInputs ++
      (wrInput .suffix suffix :: (runInputs (.licasm (plainFields .bank1)) ++ (rdInput .vv :: rd64Inputs .dout)))) hp he
    (by rw [hi]; simp only [deriveInputs, List.append_assoc, List.cons_append, List.nil_append])
  obtain ⟨t2, h2, d2, i2⟩ := blocks_run d1 i1
  obtain ⟨t, h3, e⟩ := licasm_runs d2 i2
  exact ⟨t, h1.trans (h2.trans h3), e⟩

end Sys2Proof.Machine
end

