-- ==== Sys2Proof/Laws/PerInstr.lean ====
section
/-!
SUPPORT. A statement made for each instruction: the word the encoder gives it matches its opcode-table row, that is,
under the row's mask 0xFF00F8FF it is the row's match (30_encoding.md R84).
-/

namespace Sys2Proof.Laws.OpcodeRow

/-- The match of an instruction's row of spec/opcode_table.json. -/
def rowMatch : Instr → Word
  | .nop _ => 0x00000000#32
  | .ksetup _ => 0x00000001#32
  | .enc _ => 0x00000002#32
  | .dec _ => 0x00000003#32
  | .ckclr _ => 0x00000004#32
  | .foldb _ => 0x00000005#32
  | .encfold _ => 0x00000006#32
  | .licasm _ => 0x00000007#32

/-- The encoder's word matches the row. -/
def Statement (i : Instr) : Prop := encode i &&& 0xFF00F8FF#32 = rowMatch i

/-- Under the mask, only the opcode of an assembled word is left. -/
theorem assembled_masked (imm : Byte) (k : BitVec 2) (b : BitVec 1) (op : Byte) :
    ((0#8 ++ imm ++ 0#5 ++ k ++ b ++ op : Word) &&& 0xFF00F8FF#32) = 0#24 ++ op := by
  ext i hi
  have : i < 32 := hi
  simp only [BitVec.getElem_and, BitVec.getElem_append]
  interval_cases i <;> simp

theorem nop (f : Fields) : Statement (.nop f) :=
  (assembled_masked f.imm8 f.ksrc.code f.bank.bit 0x00#8).trans (show (0#24 ++ 0x00#8 : Word) = 0x00000000#32 by decide)
theorem ksetup (f : Fields) : Statement (.ksetup f) :=
  (assembled_masked f.imm8 f.ksrc.code f.bank.bit 0x01#8).trans (show (0#24 ++ 0x01#8 : Word) = 0x00000001#32 by decide)
theorem enc (f : Fields) : Statement (.enc f) :=
  (assembled_masked f.imm8 f.ksrc.code f.bank.bit 0x02#8).trans (show (0#24 ++ 0x02#8 : Word) = 0x00000002#32 by decide)
theorem dec (f : Fields) : Statement (.dec f) :=
  (assembled_masked f.imm8 f.ksrc.code f.bank.bit 0x03#8).trans (show (0#24 ++ 0x03#8 : Word) = 0x00000003#32 by decide)
theorem ckclr (f : Fields) : Statement (.ckclr f) :=
  (assembled_masked f.imm8 f.ksrc.code f.bank.bit 0x04#8).trans (show (0#24 ++ 0x04#8 : Word) = 0x00000004#32 by decide)
theorem foldb (f : Fields) : Statement (.foldb f) :=
  (assembled_masked f.imm8 f.ksrc.code f.bank.bit 0x05#8).trans (show (0#24 ++ 0x05#8 : Word) = 0x00000005#32 by decide)
theorem encfold (f : Fields) : Statement (.encfold f) :=
  (assembled_masked f.imm8 f.ksrc.code f.bank.bit 0x06#8).trans (show (0#24 ++ 0x06#8 : Word) = 0x00000006#32 by decide)
theorem licasm (f : Fields) : Statement (.licasm f) :=
  (assembled_masked f.imm8 f.ksrc.code f.bank.bit 0x07#8).trans (show (0#24 ++ 0x07#8 : Word) = 0x00000007#32 by decide)

end Sys2Proof.Laws.OpcodeRow
end

