-- ==== Sys2Proof/Tests/Slice0.lean ====
section
/-!
SUPPORT. The model's own tests, each on one step or one function, with expected values from the spec: its encoding
tables (30_encoding.md), its worked examples (40_control.md to 44_license.md) and its vectors (95_test_vectors.md);
and, for every obligation that has hypotheses, a witness of them.
-/

namespace Sys2Proof.Tests

open Sys2Proof Sys2Proof.Machine

-- One test at a time: a hundred proof threads at once can exceed a memory limit.
set_option Elab.async false

/-! ## Small states -/

/-- Operand fields. -/
def flds (b : Bank) (k : KeySource) (imm : Byte) : Fields := { bank := b, ksrc := k, imm8 := imm }

/-- `s` with a command just accepted. -/
def pending (i : Instr) (s : State) : State := { s with pend := some { cmd := i, ops := captureOperands s } }

/-- The reset state with bank 0 keyed with `k`. -/
def keyed0 (k : Block) : State := { State.reset with rk0 := keySchedule k, kv0 := true }

/-- The reset state with bank 1 keyed with `k`. -/
def keyed1 (k : Block) : State := { State.reset with rk1 := keySchedule k, kv1 := true }

/-- `s` with `v` in DIN. -/
def withDin (v : Block) (s : State) : State := { s with dinHi := highWord v, dinLo := lowWord v }

/-- `s` with actions of the host to come and `n` steps to wait. -/
def withHost (n : Nat) (as : List Input) (s : State) : State := { s with inputs := as, countdown := n }

/-- The state of an outcome; the reset state where it stopped. -/
def stateOf : Host.Outcome State Fault Refusal → State
  | .next s => s
  | .fault _ => State.reset
  | .refused _ => State.reset

/-- A host write, and STATUS after it. -/
def statusAfter (off : Offset) (v : Word) (s : State) : Word := statusWord (stateOf (hostWrite off 4 v s))

/-! ## Well-formedness -/

/-- R86: KSETUP with the reserved key source is the one ill-formed term. -/
theorem test_reserved_key_source_is_ill_formed : (Instr.ksetup (flds .bank0 .reserved 0)).wellFormed = false := by decide

/-- R86, vector E4: and its word is refused. -/
theorem test_reserved_key_source_is_refused : decode 0x00000601#32 = .illegal .rsvd := by decide

/-- R87: the ignored fields of another command may hold anything. -/
theorem test_ignored_fields_are_well_formed : (Instr.ckclr (flds .bank1 .reserved 0xFF#8)).wellFormed = true := by decide

/-! ## Decoding: words written out from R80, bit 31 first: RSV1, IMM8, RSV0, KSRC, BANK, OP -/

theorem test_decode_nop :
    decode 0b00000000000000000000000000000000#32 = .cmd (.nop (flds .bank0 .key 0)) := by decide
theorem test_decode_ksetup :
    decode 0b00000000000000000000010100000001#32 = .cmd (.ksetup (flds .bank1 .license 0)) := by decide
theorem test_decode_enc :
    decode 0b00000000000000000000000000000010#32 = .cmd (.enc (flds .bank0 .key 0)) := by decide
theorem test_decode_dec :
    decode 0b00000000000000000000000100000011#32 = .cmd (.dec (flds .bank1 .key 0)) := by decide
theorem test_decode_ckclr :
    decode 0b00000000111111110000000100000100#32 = .cmd (.ckclr (flds .bank1 .key 0xFF#8)) := by decide
theorem test_decode_foldb :
    decode 0b00000000100000000000000000000101#32 = .cmd (.foldb (flds .bank0 .key 0x80#8)) := by decide
theorem test_decode_encfold :
    decode 0b00000000000000000000001000000110#32 = .cmd (.encfold (flds .bank0 .name 0)) := by decide
theorem test_decode_licasm :
    decode 0b00000000000000000000000100000111#32 = .cmd (.licasm (flds .bank1 .key 0)) := by decide

/-- R203's example: both an illegal opcode and a reserved bit. -/
theorem test_decode_illop_first : decode 0x01000008#32 = .illegal .illop := by decide
/-- The reserved bits at both ends of both reserved fields (R86). -/
theorem test_decode_reserved_bits :
    [0x00000802#32, 0x00008000#32, 0x01000004#32, 0x80000007#32].map decode =
      [.illegal .rsvd, .illegal .rsvd, .illegal .rsvd, .illegal .rsvd] := by decide
/-- The first and the last illegal opcode (R85). -/
theorem test_decode_illegal_opcodes :
    decode 0x00000008#32 = .illegal .illop ∧ decode 0x000000FF#32 = .illegal .illop := by decide
/-- R89's examples, assembled. -/
theorem test_encode_examples :
    encode (.ksetup (flds .bank0 .name 0)) = 0x00000201#32 ∧ encode (.ksetup (flds .bank1 .license 0)) = 0x00000501#32 ∧
    encode (.dec (flds .bank1 .key 0)) = 0x00000103#32 ∧ encode (.foldb (flds .bank0 .key 0x80#8)) = 0x00800005#32 ∧
    encode (.licasm (flds .bank1 .key 0)) = 0x00000107#32 := by decide

/-! ## Primitives -/

/-- 95_test_vectors.md section 3.4. -/
theorem test_rotl32 :
    rotl32 0x80000001#32 1 = 0x00000003#32 ∧ rotl32 0x12345678#32 0x20#32 = 0x12345678#32 ∧
    rotl32 0x12345678#32 0x21#32 = 0x2468ACF0#32 ∧ rotl32 0x12345678#32 0xFFFFFFFF#32 = 0x091A2B3C#32 := by decide
theorem test_rotr32 :
    rotr32 0x80000001#32 1 = 0xC0000000#32 ∧ rotr32 0x12345678#32 0x21#32 = 0x091A2B3C#32 ∧
    rotr32 0x12345678#32 4 = 0x81234567#32 ∧ rotr32 0x12345678#32 0 = 0x12345678#32 := by decide

/-- 90_conflicts.md C2, R6: the constants' hexadecimal forms. -/
theorem test_constants :
    licenseKey = 0xB4F0E0CCEC0EAFAD#64 ∧ firstKeyWord = 0xB7E15163#32 ∧ keyIncrement = 0x9E3779B9#32 := by decide

/-- 95_test_vectors.md section 2.2, the last initial word. -/
theorem test_initial_words : initialWord 1 = 0x5618CB1C#32 ∧ initialWord 25 = 0x2B4C3474#32 := by decide

/-- 95_test_vectors.md section 2.3: a and b after iterations 0 and 1 for master key 0. -/
theorem test_mixing_trace :
    (mixPass 1 (mixStart 0)).a = 0xBF0A8B1D#32 ∧ (mixPass 1 (mixStart 0)).b = 0xB7E15163#32 ∧
    (mixPass 2 (mixStart 0)).a = 0x68253CE6#32 ∧ (mixPass 2 (mixStart 0)).b = 0x0D1C9240#32 := by decide +kernel

/-- 95_test_vectors.md section 4.1, with a sign, a wrap and both. -/
theorem test_fold :
    fold 0 0x80#8 = 0xFFFFFC07#32 ∧ fold 0xFFFFFFFF#32 0x80#8 = 0x000003F8#32 ∧
    fold 0xE0000000#32 0 = 0x00000007#32 ∧ fold 0x80000000#32 1 = 0x0000000C#32 := by decide

/-- 95_test_vectors.md section 5: the sentinels and their neighbours. -/
theorem test_candidate_low :
    [0x04010000#32, 0x0402ABCD#32, 0x0403FFFF#32, 0x0400FFFF#32, 0x0404FFFF#32, 0xFFFFFFFF#32].map candidateLow =
      [0x04010000#32, 0x0402ABCD#32, 0x0403FFFF#32, 0x0100FFFF#32, 0x0104FFFF#32, 0x01FFFFFF#32] := by decide

/-- 95_test_vectors.md section 6. -/
theorem test_vv :
    [0x80#64, 0xFF#64, 0x81#64, 0x0101010101010101#64, 0x8000000000000000#64, 0xFF00000000000001#64].map
      (fun v => abs8 (xorFold8 v)) = [0x80#8, 0x01#8, 0x7F#8, 0x00#8, 0x80#8, 0x02#8] := by decide +kernel

/-! ## One completion step of each command -/

/-- R101: a NOP after an error does not clear ERR. -/
theorem test_nop_keeps_error :
    statusWord (stateOf (exec (.nop (flds .bank0 .key 0)) (pending (.nop (flds .bank0 .key 0))
      (raiseError .nokey State.reset)))) = 0x38#32 := by decide

/-- R110's worked example. -/
theorem test_ksetup_key_zero :
    let t := stateOf (exec (.ksetup (flds .bank0 .key 0)) (pending (.ksetup (flds .bank0 .key 0)) State.reset))
    t.rk0[0] = 0x58D496FF#32 ∧ t.rk0[1] = 0xCD593784#32 ∧ t.rk0[25] = 0x7749AE4F#32 ∧ statusWord t = 0x02#32 := by
  decide +kernel

/-- 95_test_vectors.md section 2.4: LICENSE_KEY goes to bank 1 and leaves bank 0. -/
theorem test_ksetup_license :
    let t := stateOf (exec (.ksetup (flds .bank1 .license 0)) (pending (.ksetup (flds .bank1 .license 0)) State.reset))
    t.rk1[0] = 0x919B22A7#32 ∧ t.rk1[25] = 0x5811BF6A#32 ∧ t.rk0 = State.reset.rk0 ∧ statusWord t = 0x04#32 := by
  decide +kernel

/-- R130's worked example, with DIN rewritten after acceptance (95_test_vectors.md, P3 steps 8 to 11). -/
theorem test_enc_uses_latched_din :
    doutBlock (stateOf (exec (.enc (flds .bank0 .key 0))
      (withDin 0xFFFFFFFFFFFFFFFF#64 (pending (.enc (flds .bank0 .key 0)) (keyed0 0))))) = 0xC0C761E7212D72EF#64 := by
  decide +kernel

/-- 95_test_vectors.md section 3.3: NAME_KEY, and a block with a set top bit. -/
theorem test_encrypt_pairs :
    encrypt (keySchedule nameKey) 0x0000000866697368#64 = 0x12D0AD817C827991#64 ∧
    encrypt (keySchedule 0) 0x8000000000000000#64 = 0x2FA4401F274B3381#64 := by decide +kernel

/-- R131's worked example. -/
theorem test_dec_undoes_enc :
    doutBlock (stateOf (exec (.dec (flds .bank0 .key 0)) (pending (.dec (flds .bank0 .key 0))
      (withDin 0xC0C761E7212D72EF#64 (keyed0 0))))) = 0 := by decide +kernel

/-- 95_test_vectors.md section 3.3. -/
theorem test_decrypt_pairs :
    decrypt (keySchedule 0) 0#64 = 0x3203525A62A8C3EB#64 ∧
    decrypt (keySchedule 0x0123456789ABCDEF#64) 0#64 = 0x24B2C02B3F7DB188#64 := by decide +kernel

/-- R151's worked example. -/
theorem test_ckclr :
    (stateOf (exec (.ckclr (flds .bank0 .key 0)) (pending (.ckclr (flds .bank0 .key 0))
      { State.reset with cksum := 0x7FA71EA7#32 }))).cksum = 0 := by decide

/-- 95_test_vectors.md section 4.2. -/
theorem test_foldb :
    (stateOf (exec (.foldb (flds .bank0 .key 0x9A#8)) (pending (.foldb (flds .bank0 .key 0x9A#8))
      { State.reset with cksum := 0x12345678#32 }))).cksum = 0x6E5D4F17#32 := by decide

/-- 95_test_vectors.md, P4 step 11: bank 1, the ciphertext most significant byte first. -/
theorem test_encfold :
    let t := stateOf (exec (.encfold (flds .bank1 .key 0)) (pending (.encfold (flds .bank1 .key 0))
      (keyed1 0xFFFFFFFFFFFFFFFF#64)))
    doutBlock t = 0x107FE37328FD0AC5#64 ∧ t.cksum = 0xE054F8AF#32 := by decide +kernel

/-- R153's worked example, second block. -/
theorem test_encfold_accumulates :
    (stateOf (exec (.encfold (flds .bank0 .key 0)) (pending (.encfold (flds .bank0 .key 0))
      (withDin 0x3230313800000000#64 { keyed0 nameKey with cksum := 0xE96FD8CF#32 })))).cksum = 0x7FA71EA7#32 := by
  decide +kernel

/-- R170's worked example. -/
theorem test_licasm :
    let t := stateOf (exec (.licasm (flds .bank1 .key 0)) (pending (.licasm (flds .bank1 .key 0))
      { keyed1 licenseKey with cksum := 0x7FA71EA7#32, suffix := 0x43F9C401#32 }))
    invalBlock t = 0x2B2F312D01F9C401#64 ∧ doutBlock t = 0xA6ACB9BA71E89CE1#64 ∧ t.vv = 0x25#8 ∧
      t.cksum = 0x7FA71EA7#32 := by decide +kernel

/-- 95_test_vectors.md section 5, last row: a sentinel suffix, under a bank that holds another key. -/
theorem test_licasm_sentinel :
    let t := stateOf (exec (.licasm (flds .bank1 .key 0)) (pending (.licasm (flds .bank1 .key 0))
      { keyed1 0xFFFFFFFFFFFFFFFF#64 with cksum := 0xE054F8AF#32, suffix := 0x04030000#32 }))
    invalBlock t = 0xB4DCD72504030000#64 ∧ doutBlock t = 0xD120BDFC28815569#64 ∧ t.vv = 0x63#8 := by decide +kernel

/-- 95_test_vectors.md section 7: the padding of "abcde" and of the empty name. -/
theorem test_pad :
    blocksOf (padName [0x61#8, 0x62#8, 0x63#8, 0x64#8, 0x65#8]) = [0x0000000561626364#64, 0x6500000000000000#64] ∧
    blocksOf (padName []) = [0#64] ∧ (padName [0x61#8, 0x62#8, 0x63#8, 0x64#8]).length = 8 := by decide

/-- 95_test_vectors.md section 7: the derivation of "abcd". -/
theorem test_derive_abcd :
    deriveChars [0x61#8, 0x62#8, 0x63#8, 0x64#8] 0x43F9C401#32 = "0b781e97d2bac32469".toList := by decide +kernel

/-! ## Acceptance, errors, reads (95_test_vectors.md section 8) -/

/-- E1 to E5: from reset. -/
theorem test_errors_from_reset :
    statusAfter 0x008#12 0x00000008#32 State.reset = 0x18#32 ∧ statusAfter 0x008#12 0x01000008#32 State.reset = 0x18#32 ∧
    statusAfter 0x008#12 0x00000802#32 State.reset = 0x28#32 ∧ statusAfter 0x008#12 0x00000601#32 State.reset = 0x28#32 ∧
    statusAfter 0x008#12 0x00000102#32 State.reset = 0x38#32 := by decide
/-- E6: the first error is kept. -/
theorem test_first_error_kept : statusAfter 0x008#12 0x000000FF#32 (raiseError .nokey State.reset) = 0x38#32 := by decide
/-- E7, E8: bit 3 of a STATUS write, and no other, clears it. -/
theorem test_status_write :
    statusAfter 0x004#12 0x00000008#32 (raiseError .nokey State.reset) = 0x00#32 ∧
    statusAfter 0x004#12 0x000000F7#32 (raiseError .nokey State.reset) = 0x38#32 := by decide
/-- E9: OVR, with BUSY. -/
theorem test_overrun :
    statusAfter 0x008#12 0x00000000#32 (pending (.nop (flds .bank0 .key 0)) State.reset) = 0x49#32 := by decide
/-- E10: CKSUM stays. -/
theorem test_cksum_write_while_busy :
    (stateOf (hostWrite 0x028#12 4 0x12345678#32 (pending (.nop (flds .bank0 .key 0)) State.reset))).cksum = 0 := by decide
/-- E11. -/
theorem test_din_write_while_busy :
    let t := stateOf (hostWrite 0x018#12 4 0x12345678#32 (pending (.nop (flds .bank0 .key 0)) State.reset))
    t.dinLo = 0x12345678#32 ∧ statusWord t = 0x01#32 ∧ t.pend.map (fun p => p.ops.din) = some 0 := by decide
/-- E12: a result read while BUSY is a free value. -/
theorem test_busy_read_is_free :
    readValue (pending (.nop (flds .bank0 .key 0)) State.reset) (regAt 0x020#12) = none := by decide
/-- E13. -/
theorem test_bad_accesses :
    hostRead 0x001#12 4 State.reset = .fault (.busError 0x001#12 4) ∧
    hostRead 0x004#12 2 State.reset = .fault (.busError 0x004#12 2) ∧
    hostRead 0x002#12 4 State.reset = .fault (.busError 0x002#12 4) := ⟨rfl, rfl, rfl⟩
/-- E14, E16: reserved offsets and CMD read 0. -/
theorem test_reads_as_zero :
    [0x00C#12, 0x03C#12, 0x0FC#12, 0x168#12, 0x1FC#12, 0x268#12, 0xFFC#12, 0x008#12].map
      (fun o => readValue State.reset (regAt o)) = List.replicate 8 (some 0) := by decide
/-- E18, E19: ID, and an RK word of an unkeyed bank. -/
theorem test_reads_after_reset :
    readValue State.reset (regAt 0x000#12) = some 0x434B0001#32 ∧ readValue State.reset (regAt 0x100#12) = none := by decide
/-- P1 step 3: RK0_25 stands at 0x164. -/
theorem test_rk_window :
    readValue (keyed0 0) (regAt 0x100#12) = some 0x58D496FF#32 ∧
    readValue (keyed0 0) (regAt 0x164#12) = some 0x7749AE4F#32 ∧ regAt 0x264#12 = .rk .bank1 25 := by decide +kernel
/-- E20, E21: accepted with ERR = 1, and with ignored fields set. -/
theorem test_accepted :
    statusAfter 0x008#12 0x00000002#32 (raiseError .ovr (keyed0 0)) = 0x4B#32 ∧
    statusAfter 0x008#12 0x00FF0104#32 (keyed0 0) = 0x03#32 := by decide +kernel

/-! ## The step -/

/-- The word of FOLDB 0x80, placed at reset, is the first command to complete (the host's own question). -/
theorem test_placed_word_runs :
    (stateOf (step (State.reset.withFetchWord 32 0x00800005))).cksum = 0xFFFFFC07#32 := by decide
/-- P3 step 10, both outcomes: a CKCLR issued behind a pending command is refused or accepted, as the wait falls. -/
theorem test_both_orders :
    statusWord (stateOf (step (withHost 1 [.write cmdOffset 4 4] (pending (.nop (flds .bank0 .key 0)) State.reset))))
      = 0x49#32 ∧
    statusWord (stateOf (step (stateOf (step (withHost 0 [.write cmdOffset 4 4]
      (pending (.nop (flds .bank0 .key 0)) State.reset)))))) = 0x01#32 := by decide
/-- `wait` polls again while BUSY = 1, and ends once it is 0 (R90). -/
theorem test_wait :
    (stateOf (step (withHost 2 [.wait] (pending (.nop (flds .bank0 .key 0)) State.reset)))).inputs = [.wait] ∧
    (stateOf (step (withHost 0 [.wait] State.reset))).inputs = [] := by decide

/-- The `require` of `run` lets the program go on with ERR = 0, and ends it with ERR = 1, where only a reset of the
platform is left to come (R90). -/
theorem test_require :
    (stateOf (step (withHost 0 [.require, .wait, .reset] State.reset))).inputs = [.wait, .reset] ∧
    (stateOf (step (withHost 0 [.require, .wait, .reset] (raiseError .nokey State.reset)))).inputs = [.reset] ∧
    (stateOf (step (withHost 0 [.require] (raiseError .nokey State.reset)))).history.head? =
      some (.readReturned 0x004#12 0x38#32) := by decide
/-- P1 steps 1, 4 and 9: `wr64 KEY`, `wr64 DIN` and `rd64 DOUT` as bus accesses. -/
theorem test_pair_accesses :
    wr64Inputs .key 0x0123456789ABCDEF#64 = [.write 0x014#12 4 0x01234567#32, .write 0x010#12 4 0x89ABCDEF#32] ∧
    wr64Inputs .din 0x0123456789ABCDEF#64 = [.write 0x01C#12 4 0x01234567#32, .write 0x018#12 4 0x89ABCDEF#32] ∧
    rd64Inputs .dout = [.read 0x024#12 4, .read 0x020#12 4] ∧ rd64Inputs .inval = [.read 0x034#12 4, .read 0x030#12 4] := by
  decide
/-- P2 steps 10 and 11: the text of the values read. -/
theorem test_text_of_reads :
    derivedText [.readReturned 0x020#12 0x71E89CE1#32, .readReturned 0x024#12 0xA6ACB9BA#32,
      .readReturned 0x038#12 0x00000025#32] = some "25a6acb9ba71e89ce1".toList ∧
    derivedText [.readReturned 0x004#12 0x38#32] = none := by decide

/-! ## Witnesses: concrete states and operands that meet the hypotheses of each obligation -/

/-- A NOP pending since reset. -/
def nopPending : State := pending (.nop (flds .bank0 .key 0)) State.reset

/-- A KSETUP of bank 0 pending since reset. -/
def ksetupPending : State := pending (.ksetup (flds .bank0 .key 0)) State.reset

/-- A FOLDB of 0x80 pending since reset. -/
def foldbPending : State := pending (.foldb (flds .bank0 .key 0x80#8)) State.reset

/-- A LICASM of bank 1 pending, bank 1 being keyed. -/
def licasmPending : State := pending (.licasm (flds .bank1 .key 0)) { State.reset with kv1 := true }

/-- A state with an error on record. -/
def errState : State := raiseError .nokey State.reset

/-- ResetValues: a reset event in a state far from reset. -/
theorem witness_ResetValues : ∃ t, applyInput { licasmPending with keyLo := 5, err := true } .reset = .next t := ⟨_, rfl⟩

theorem witness_ResetDiscardsPending :
    ∃ p rest, (withHost 2 [.reset] ksetupPending).pend = some p ∧
      (withHost 2 [.reset] ksetupPending).inputs = .reset :: rest ∧
      sequencerTurn (withHost 2 [.reset] ksetupPending) = false := ⟨_, _, rfl, rfl, by decide⟩

/-- StatusFields: the invariant with no error and with one, at the ends of ECODE's range. -/
theorem witness_StatusFields : StateInv State.reset ∧ StateInv (raiseError .illop State.reset) ∧
    StateInv (raiseError .ovr nopPending) :=
  ⟨⟨by decide, by decide, by simp [State.reset], by simp [State.reset], by decide⟩,
   ⟨by decide, by decide, by simp [raiseError, State.reset], by simp [raiseError, State.reset], by decide⟩,
   ⟨by decide, by decide, by intro p h; cases h; rfl, by intro p h; cases h; decide, by decide⟩⟩

/-- HostWriteEffects: an offset for each clause, the last one being the window's last word. -/
theorem witness_HostWriteEffects :
    [0x010#12, 0x014#12, 0x018#12, 0x01C#12, 0x02C#12, 0x028#12, 0x004#12, 0x008#12, 0x000#12, 0xFFC#12].all
      (fun off => off.toNat % 4 = 0) := by decide

/-- ReservedAndReadOnlyOffsets: both ends of every range. -/
theorem witness_ReservedAndReadOnlyOffsets :
    [0x00C#12, 0x03C#12, 0x0FC#12, 0x168#12, 0x1FC#12, 0x268#12, 0xFFC#12].all (fun off => off.toNat % 4 = 0 ∧
      (off.toNat = 0x00C ∨ (0x03C ≤ off.toNat ∧ off.toNat ≤ 0x0FC) ∨ (0x168 ≤ off.toNat ∧ off.toNat ≤ 0x1FC) ∨
        0x268 ≤ off.toNat)) ∧
    [0x000#12, 0x038#12, 0x100#12, 0x164#12, 0x200#12, 0x264#12].all (fun off => off.toNat % 4 = 0 ∧
      (off.toNat ∈ [0x000, 0x020, 0x024, 0x030, 0x034, 0x038] ∨ (0x100 ≤ off.toNat ∧ off.toNat ≤ 0x164) ∨
        (0x200 ≤ off.toNat ∧ off.toNat ≤ 0x264))) := by decide

/-- HostReadValues: BUSY of both values, and KV of both values while BUSY = 0. -/
theorem witness_HostReadValues :
    nopPending.pend.isSome = true ∧ State.reset.pend.isSome = false ∧ State.reset.kv0 = false ∧
    ({ State.reset with kv0 := true } : State).kv0 = true ∧ ({ State.reset with kv1 := true } : State).kv1 = true := by
  decide

/-- BadAccessIsBusError: a narrow access, a misaligned one, and the last good one. -/
theorem witness_BadAccessIsBusError :
    ((2 : Nat) ≠ 4 ∨ (0x004#12).toNat % 4 ≠ 0) ∧ ((4 : Nat) ≠ 4 ∨ (0xFFF#12).toNat % 4 ≠ 0) ∧
    (0xFFC#12).toNat % 4 = 0 := by decide

/-- OnlyFaultIsBusError: a step that answers and a step that faults. -/
theorem witness_OnlyFaultIsBusError :
    (∃ t, step nopPending = .next t) ∧
    step (withHost 0 [.read 0x001#12 4] State.reset) = .fault (.busError 0x001#12 4) := ⟨⟨_, rfl⟩, rfl⟩

/-- ReadsHaveNoSideEffect: a plain read and a free one. -/
theorem witness_ReadsHaveNoSideEffect :
    (∃ t, hostRead 0x004#12 4 State.reset = .next t) ∧ ∃ t, hostRead 0x020#12 4 nopPending = .next t :=
  ⟨⟨_, rfl⟩, ⟨_, rfl⟩⟩

/-- RegisterReadsBackWrite: the first and the last plain register, and CKSUM. -/
theorem witness_RegisterReadsBackWrite :
    (∃ t, hostWrite 0x010#12 4 7 nopPending = .next t) ∧ (∃ t, hostWrite 0x02C#12 4 7 nopPending = .next t) ∧
    State.reset.pend = none ∧ ∃ t, hostWrite 0x028#12 4 7 State.reset = .next t :=
  ⟨⟨_, rfl⟩, ⟨_, rfl⟩, rfl, ⟨_, rfl⟩⟩

/-- WordDecodes: a word in each branch, at the branch's edges. -/
theorem witness_WordDecodes :
    7 < (0x00000008#32).toNat % 256 ∧ 7 < (0xFFFFFFFF#32).toNat % 256 ∧
    [0x00000807#32, 0x00008000#32, 0x01000000#32, 0x80000001#32].all (fun w => ¬7 < w.toNat % 256 ∧
      (w.toNat / 2 ^ 11 % 32 ≠ 0 ∨ w.toNat / 2 ^ 24 % 256 ≠ 0)) ∧
    [0x00000601#32, 0x00FF0701#32].all (fun w => ¬7 < w.toNat % 256 ∧
      ¬(w.toNat / 2 ^ 11 % 32 ≠ 0 ∨ w.toNat / 2 ^ 24 % 256 ≠ 0) ∧ w.toNat % 256 = 1 ∧ w.toNat / 2 ^ 9 % 4 = 3) ∧
    [0x00000000#32, 0x00FF0707#32, 0x00000501#32].all (fun w => ¬7 < w.toNat % 256 ∧
      ¬(w.toNat / 2 ^ 11 % 32 ≠ 0 ∨ w.toNat / 2 ^ 24 % 256 ≠ 0) ∧ ¬(w.toNat % 256 = 1 ∧ w.toNat / 2 ^ 9 % 4 = 3)) := by
  decide

theorem witness_AssemblerSyntax : KeySource.license ≠ .reserved := by decide

/-- DecodeOfEncode: a well-formed and an ill-formed command. -/
theorem witness_DecodeOfEncode :
    (Instr.ksetup (flds .bank1 .license 0xFF#8)).wellFormed = true ∧
    (Instr.ksetup (flds .bank1 .reserved 0xFF#8)).wellFormed = false := by decide

theorem witness_EncodeOfDecode : decode 0x00FF0707#32 = .cmd (.licasm (flds .bank1 .reserved 0xFF#8)) := by decide

/-- MatchAndMask: a word of the first and of the last row, KSETUP's word with KSRC = 3, and a word of no row. -/
theorem witness_MatchAndMask :
    0x00FF0700#32 &&& 0xFF00F8FF#32 = (0x00#8).setWidth 32 ∧ 0x00000107#32 &&& 0xFF00F8FF#32 = (0x07#8).setWidth 32 ∧
    0x00000601#32 &&& 0xFF00F8FF#32 = (0x01#8).setWidth 32 ∧ (0x00000601#32).extractLsb' 9 2 = 3#2 ∧
    ∀ n ≤ 7, ¬0x00000008#32 &&& 0xFF00F8FF#32 = (BitVec.ofNat 8 n).setWidth 32 := by decide

/-- IllegalWordsHaveNoEffect: the first and last illegal opcode, and each ground of RSVD. -/
theorem witness_IllegalWordsHaveNoEffect :
    State.reset.pend = none ∧ 7 < ((0x00000008#32).extractLsb' 0 8).toNat ∧ 7 < ((0x000000FF#32).extractLsb' 0 8).toNat ∧
    [0x00000800#32, 0x01000007#32, 0x00000601#32].all
      (fun w => (w.extractLsb' 0 8).toNat ≤ 7 ∧ rsvdBits w = true) := by decide

/-- IgnoredFieldsHaveNoEffect: R87's two CKCLR words, and two FOLDBs, ENCs and KSETUPs. -/
theorem witness_IgnoredFieldsHaveNoEffect :
    decode 0x00FF0104#32 = .cmd (.ckclr (flds .bank1 .key 0xFF#8)) ∧ decode 0x00000004#32 = .cmd (.ckclr (flds .bank0 .key 0)) ∧
    flds .bank0 .key 1 ≠ flds .bank1 .name 1 ∧ (flds .bank0 .key 1).imm8 = (flds .bank1 .name 1).imm8 ∧
    flds .bank1 .key 1 ≠ flds .bank1 .key 2 ∧ (flds .bank1 .key 1).bank = (flds .bank1 .key 2).bank ∧
    (flds .bank1 .key 1).ksrc = (flds .bank1 .key 2).ksrc := by decide

/-- CommandAcceptance: busy; illegal; no key; accepted, with a bank needed and without. -/
theorem witness_CommandAcceptance :
    nopPending.pend.isSome = true ∧ State.reset.pend = none ∧ decode 0x00000008#32 = .illegal .illop ∧
    decode 0x00000102#32 = .cmd (.enc (flds .bank1 .key 0)) ∧ bankValid State.reset .bank1 = false ∧
    bankValid { State.reset with kv1 := true } .bank1 = true ∧ decode 0x00000000#32 = .cmd (.nop (flds .bank0 .key 0)) := by
  decide

/-- ErrorCausesAndPriority: one input for each branch (R203's examples among them). -/
theorem witness_ErrorCausesAndPriority :
    nopPending.err = false ∧ nopPending.pend.isSome = true ∧ State.reset.err = false ∧ State.reset.pend.isSome = false ∧
    7 < ((0x01000008#32).extractLsb' 0 8).toNat ∧ rsvdBits 0x00000802#32 = true ∧
    rsvdBits 0x00000102#32 = false ∧ (0x00000102#32).extractLsb' 0 8 = 0x02#8 ∧ keyBit 0x00000102#32 State.reset = false ∧
    keyBit 0x00000102#32 { State.reset with kv1 := true } = true ∧ (accept 0x00000102#32 State.reset).err = true ∧
    (4 : Nat) ≠ 2 := by decide

/-- FirstErrorIsKept: ERR clear and set, a STATUS write that clears, a step with ERR = 1, a valid word with ERR = 1 that
needs no bank and one that does, and an acceptance. -/
theorem witness_FirstErrorIsKept :
    State.reset.err = false ∧ errState.err = true ∧ (0x00000008#32).getLsbD 3 = true ∧
    (∃ t, step { nopPending with err := true } = .next t) ∧ errState.pend = none ∧
    decode 0x00000000#32 = .cmd (.nop (flds .bank0 .key 0)) ∧ decode 0x00000102#32 = .cmd (.enc (flds .bank1 .key 0)) ∧
    bankValid { errState with kv1 := true } .bank1 = true ∧
    Accepted (.nop (flds .bank0 .key 0)) State.reset (accept 0 State.reset) :=
  ⟨by decide, by decide, by decide, ⟨_, rfl⟩, by decide, by decide, by decide, by decide, ⟨_, _, rfl⟩⟩

theorem witness_CksumWriteWhileBusy : nopPending.pend.isSome = true := by decide

theorem witness_NoRefusalMeansAccepted : NoRefusal (accept 0 State.reset) := by
  intro c h
  cases h

/-- LatchedOperandsAreIsolated: the first and the last register of the list. -/
theorem witness_LatchedOperandsAreIsolated :
    ∃ p, licasmPending.pend = some p ∧ Reg.keyLo ∈ [Reg.keyLo, Reg.keyHi, Reg.dinLo, Reg.dinHi, Reg.suffix] ∧
      Reg.suffix ∈ [Reg.keyLo, Reg.keyHi, Reg.dinLo, Reg.dinHi, Reg.suffix] := ⟨_, rfl, by decide, by decide⟩

/-- StepRunsThePendingCommand: the sequencer's turn by wait and by want of actions, the host's while a command waits
and while none does, and the idle block. -/
theorem witness_StepRunsThePendingCommand :
    (withHost 0 [.wait] nopPending).pend.isSome = true ∧ sequencerTurn (withHost 0 [.wait] nopPending) = true ∧
    (withHost 3 [] nopPending).inputs = [] ∧ (withHost 0 [.wait] nopPending).countdown = 0 ∧
    (withHost 1 [.wait] nopPending).inputs = .wait :: [] ∧ (withHost 1 [.wait] nopPending).countdown ≠ 0 ∧
    (withHost 0 [.wait] State.reset).pend = none ∧ State.reset.pend = none ∧ State.reset.inputs = [] := by decide

theorem witness_FetchWordRunsNext : decode 0x00000107#32 = .cmd (.licasm (flds .bank1 .key 0)) := by decide

theorem witness_CompletionRetires : ∃ p, licasmPending.pend = some p := ⟨_, rfl⟩

/-- Each branch of the acceptance of an opcode, for any opcode of the map: busy, a reserved bit, no key, accepted. -/
theorem witness_AcceptanceErrors :
    nopPending.pend.isSome = true ∧ State.reset.pend.isSome = false ∧
    [0x00#32, 0x01#32, 0x02#32, 0x03#32, 0x04#32, 0x05#32, 0x06#32, 0x07#32].all (fun op =>
      rsvdBits (op ||| 0x00008000#32) = true ∧ rsvdBits op = false ∧ keyBit op State.reset = false ∧
      keyBit op { State.reset with kv0 := true } = true) := by decide

/-- The completion statements of the eight commands: each with its command pending. -/
theorem witness_NopChangesNothing : ∃ p, nopPending.pend = some p := ⟨_, rfl⟩
theorem witness_KsetupFillsTheBank : (∃ p, ksetupPending.pend = some p) ∧ KeySource.key ≠ .reserved ∧
    KeySource.license ≠ .reserved := ⟨⟨_, rfl⟩, by decide, by decide⟩
theorem witness_EncWritesDout : ∃ p, (pending (.enc (flds .bank0 .key 0)) (keyed0 0)).pend = some p := ⟨_, rfl⟩
theorem witness_DecWritesDout : ∃ p, (pending (.dec (flds .bank1 .key 0)) (keyed1 0)).pend = some p := ⟨_, rfl⟩
theorem witness_CkclrClearsCksum : ∃ p, (pending (.ckclr (flds .bank0 .key 0)) State.reset).pend = some p := ⟨_, rfl⟩
theorem witness_FoldbFoldsOneByte : ∃ p, foldbPending.pend = some p := ⟨_, rfl⟩
theorem witness_EncfoldFoldsTheCiphertext :
    ∃ p, (pending (.encfold (flds .bank0 .key 0)) (keyed0 nameKey)).pend = some p := ⟨_, rfl⟩
theorem witness_LicasmAssemblesAndDecrypts : ∃ p, licasmPending.pend = some p := ⟨_, rfl⟩

/-- InitialRoundKeyWords: word 0, and the last pair of neighbours. -/
theorem witness_InitialRoundKeyWords : (0 : Fin 26).val = 0 ∧ (25 : Fin 26).val = (24 : Fin 26).val + 1 := by decide

/-- MixingPassGivesTheSchedule: the first and the last iteration, and the ends of S and L. -/
theorem witness_MixingPassGivesTheSchedule : 0 < 78 ∧ 77 < 78 ∧ 25 < 26 ∧ 77 % 26 = 25 ∧ 1 < 2 ∧ 77 % 2 = 1 := by decide

/-- KeyScheduleDeterminism: NAME_KEY from KSRC = 1 into bank 0, and the same value from the KEY register into bank 1. -/
theorem witness_KeyScheduleDeterminism :
    ∃ p q, ksetupPending.pend = some p ∧
      (pending (.ksetup (flds .bank1 .key 0)) { State.reset with keyHi := 0x7A21C951#32, keyLo := 0x691CD470#32 }).pend
        = some q ∧
      masterKey (flds .bank0 .name 0).ksrc p.ops = masterKey (flds .bank1 .key 0).ksrc q.ops :=
  ⟨_, _, rfl, rfl, by decide⟩

theorem witness_ByteSlices : 0 < 8 ∧ 7 < 8 := by decide

/-- XorFoldOfCandidate: another order of a candidate's bytes. -/
theorem witness_XorFoldOfCandidate : (bytesOf 0x2B2F312D01F9C401#64).reverse.Perm (bytesOf 0x2B2F312D01F9C401#64) :=
  List.reverse_perm _

/-- StepKeepsInvariant: a completion, in a state that meets the invariant. -/
theorem witness_StepKeepsInvariant : StateInv licasmPending ∧ ∃ t, step licasmPending = .next t :=
  ⟨⟨by decide, by decide, by intro p h; cases h; rfl, by intro p h; cases h; decide, by decide⟩, ⟨_, rfl⟩⟩

/-- KeyValidBits: a KSETUP's completion, a step that keeps KV, one that sets it, and an unkeyed bank's last word and
command. -/
theorem witness_KeyValidBits :
    (∃ t, exec (.ksetup (flds .bank0 .key 0)) ksetupPending = .next t) ∧
    (∃ t, step licasmPending = .next t) ∧ bankValid licasmPending .bank1 = true ∧
    (∀ rest, licasmPending.inputs ≠ .reset :: rest) ∧
    (∃ t, step ksetupPending = .next t ∧ bankValid t .bank0 = true) ∧ bankValid ksetupPending .bank0 = false ∧
    regAt 0x264#12 = .rk .bank1 25 ∧ (0x264#12).toNat % 4 = 0 ∧ bankValid State.reset .bank1 = false ∧
    State.reset.pend = none ∧ decode 0x00000102#32 = .cmd (.enc (flds .bank1 .key 0)) :=
  ⟨⟨_, rfl⟩, ⟨_, rfl⟩, by decide, fun _ => nofun, ⟨_, rfl, rfl⟩, by decide, by decide, by decide, by decide, by decide,
    by decide⟩

/-- BankChangesOnlyByKsetup: a KSETUP that changes its bank, and a reset that changes one. -/
theorem witness_BankChangesOnlyByKsetup :
    (∃ t, step ksetupPending = .next t ∧ t.rk0 = keySchedule 0) ∧ (keySchedule 0)[0] ≠ ksetupPending.rk0[0] ∧
    ∃ t, step (withHost 0 [.reset] (keyed0 0)) = .next t ∧ t.rk0 = State.reset.rk0 :=
  ⟨⟨_, rfl, rfl⟩, by decide +kernel, ⟨_, rfl, rfl⟩⟩

/-- ResultsChangeOnlyByTheirCommands: LICASM changes INVAL. -/
theorem witness_ResultsChangeOnlyByTheirCommands :
    ∃ t, step licasmPending = .next t ∧ t.invalHi ≠ licasmPending.invalHi ∧
      ∀ rest, licasmPending.inputs ≠ .reset :: rest := ⟨_, rfl, by decide, fun _ => nofun⟩

/-- OperandsChangeOnlyByHostWrites: a write of each kind changes its register, and FOLDB changes CKSUM. -/
theorem witness_OperandsChangeOnlyByHostWrites :
    [0x010#12, 0x014#12, 0x018#12, 0x01C#12, 0x02C#12, 0x028#12].all
      (fun off => stateOf (step (withHost 0 [.write off 4 7] State.reset)) ≠ State.reset) ∧
    (∃ t, step foldbPending = .next t ∧ t.cksum ≠ foldbPending.cksum) ∧
    ∀ rest, foldbPending.inputs ≠ .reset :: rest := ⟨by decide, ⟨_, rfl, by decide⟩, fun _ => nofun⟩

/-- AcceptedCommandCompletes: a command that waits two steps while the host polls and reads. -/
theorem witness_AcceptedCommandCompletes :
    ∃ p, (withHost 2 [.wait, .require, .read 0x004#12 4, .write 0x010#12 4 1] nopPending).pend = some p ∧
      ∀ a ∈ [Input.wait, .require, .read 0x004#12 4, .write 0x010#12 4 1], plainInput a = true := ⟨_, rfl, by decide⟩

theorem witness_HistoryOnlyGrows : ∃ t, step (withHost 0 [.write 0x008#12 4 8] State.reset) = .next t ∧
    t.history = [.refused .illop] := ⟨_, rfl, rfl⟩

/-- PaddedMessage: the empty name and a name of four bytes, both short enough for the length field. -/
theorem witness_PaddedMessage : ([] : List Byte).length < 2 ^ 32 ∧ [0x61#8, 0x62#8, 0x63#8, 0x64#8].length < 2 ^ 32 := by
  decide

/-- BlocksAreBigEndian: the last byte of the second block of a five-byte name. -/
theorem witness_BlocksAreBigEndian :
    1 < (padName [0x61#8, 0x62#8, 0x63#8, 0x64#8, 0x65#8]).length / 8 ∧ 7 < 8 := by decide

/-- DerivedTextFormat: the bounds of its digits. -/
theorem witness_DerivedTextFormat : 1 < 2 ∧ 15 < 16 := by decide

end Sys2Proof.Tests
end

section
/-!
PROOFS. The primitives of 00_scope.md: the rotations (R11) and the bytes of a block (R13).
-/

namespace Sys2Proof.Machine

/-- The slice `y[4:0]` is `y mod 32` (R11). -/
theorem rotAmount_eq_mod (y : Word) : rotAmount y = y.toNat % 32 := by
  simp [rotAmount]

/-- The model's left rotation is the library's: amount 0, which the model answers apart, is the library's identity. -/
theorem rotl32_eq_rotateLeft (x y : Word) : rotl32 x y = x.rotateLeft (y.toNat % 32) := by
  unfold rotl32
  rw [rotAmount_eq_mod]
  split
  case isTrue h => simp [h, BitVec.rotateLeft_def, BitVec.ushiftRight_eq_zero]
  case isFalse => simp [BitVec.rotateLeft_def]

/-- An amount that is 0 modulo 32 leaves the value as it is. -/
theorem rotl32_eq_self (x : Word) {y : Word} (h : rotAmount y = 0) : rotl32 x y = x := if_pos h

/-- The model's right rotation is the library's. -/
theorem rotr32_eq_rotateRight (x y : Word) : rotr32 x y = x.rotateRight (y.toNat % 32) := by
  unfold rotr32
  rw [rotAmount_eq_mod]
  split
  case isTrue h => simp [h, BitVec.rotateRight_def]
  case isFalse => simp [BitVec.rotateRight_def]

/-- The left rotation by `n` takes its low `n` bits from the top of its argument and the others from `n` places below;
the right rotation has put just the bits of `x` there. -/
theorem rotateLeft_rotateRight {w : Nat} (x : BitVec w) (n : Nat) : (x.rotateRight n).rotateLeft n = x := by
  ext i hi
  have hn : n % w < w := Nat.mod_lt n (by omega)
  rw [BitVec.getElem_rotateLeft]
  split
  case isTrue hlow =>
    have hwrap : ¬ w - n % w + i < w - n % w := by omega
    simp [hwrap]
  case isFalse hhigh =>
    have hplain : i - n % w < w - n % w := by omega
    have hback : n % w + (i - n % w) = i := by omega
    simp [hplain, hback]

/-- The left rotation undoes the right one by the same amount. -/
@[simp] theorem rotl32_rotr32 (x y : Word) : rotl32 (rotr32 x y) y = x := by
  rw [rotl32_eq_rotateLeft, rotr32_eq_rotateRight, rotateLeft_rotateRight]

/-- Byte `k` has `8 * (7 - k)` bits of the block below it (R13). -/
theorem byteAt_toNat (v : Block) {k : Nat} (hk : k < 8) :
    (byteAt v k).toNat = v.toNat / 2 ^ (8 * (7 - k)) % 256 := by
  have hstart : 56 - 8 * k = 8 * (7 - k) := by omega
  rw [byteAt, hstart, BitVec.extractLsb'_toNat, Nat.shiftRight_eq_div_pow]

/-- Settles O41: both rotations are the library's by `y mod 32`; amounts 0 and 32 are 0 modulo 32 and 33 is 1; the left
rotation undoes the right one bit by bit. -/
theorem rotationPrimitives : Obligations.RotationPrimitives := by
  intro x y
  refine ⟨rotl32_eq_rotateLeft x y, rotr32_eq_rotateRight x y, ?_, ?_, ?_, rotl32_rotr32 x y⟩
  · exact rotl32_eq_self x (by decide)
  · exact rotl32_eq_self x (by decide)
  · simp [rotl32_eq_rotateLeft]

/-- Settles O45: the slice of byte `k` read as a number. -/
theorem byteSlices : Obligations.ByteSlices := fun v _ hk => byteAt_toNat v hk

end Sys2Proof.Machine
end

section
/-!
PROOFS. What each part of the machine can do to the registers: one rule for each way in which a register changes, from
which the invariants of 10_state.md are assembled.
-/

namespace Sys2Proof.Machine

/-! ### Acceptance (R200), case by case -/

/-- The opcodes of the commands that read a bank (R83). -/
theorem needsKey_iff_op (i : Instr) : needsKey i = true ↔ i.op ∈ [0x02#8, 0x03#8, 0x06#8, 0x07#8] := by
  cases i <;> simp [needsKey, Instr.op]

theorem accept_of_busy {s : State} (w : Word) (hb : s.pend.isSome = true) : accept w s = raiseError .ovr s := by
  simp [accept, busy, hb]

theorem accept_of_illegal {w : Word} {s : State} {c : CmdError} (hp : s.pend = none) (hd : decode w = .illegal c) :
    accept w s = raiseError c s := by
  simp [accept, busy, hp, hd]

theorem accept_of_unkeyed {w : Word} {s : State} {i : Instr} (hp : s.pend = none) (hd : decode w = .cmd i)
    (hn : needsKey i = true) (hk : bankValid s i.fields.bank = false) : accept w s = raiseError .nokey s := by
  simp [accept, busy, hp, hd, hn, hk]

theorem accept_of_keyed {w : Word} {s : State} {i : Instr} (hp : s.pend = none) (hd : decode w = .cmd i)
    (hk : needsKey i = true → bankValid s i.fields.bank = true) : accept w s = latchCommand i s := by
  have hpass : (needsKey i && !bankValid s i.fields.bank) = false := by
    cases hn : needsKey i <;> simp_all
  simp [accept, busy, hp, hd, hpass]

theorem accepted_latchCommand (i : Instr) (s : State) : Accepted i s (latchCommand i s) := ⟨_, _, rfl⟩

/-- A refusal touches ERR, ECODE and the record of refusals (R202). -/
theorem raiseError_frame (c : CmdError) (s : State) :
    raiseError c s =
      { s with err := (raiseError c s).err, ecode := (raiseError c s).ecode, history := (raiseError c s).history } := by
  unfold raiseError
  split <;> rfl

/-! ### Reads -/

/-- A read of a register that has a value answers it (R56). -/
theorem hostRead_answered {off : Offset} {s : State} {v : Word} (ha : off.toNat % 4 = 0)
    (hv : readValue s (regAt off) = some v) : hostRead off 4 s = .next (Answered off v s) := by
  rw [hostRead_at ha, hv]
  rfl

/-- A read of a register that has none draws a free value (R12, R33). -/
theorem hostRead_free {off : Offset} {s : State} (ha : off.toNat % 4 = 0) (hv : readValue s (regAt off) = none) :
    hostRead off 4 s = .next (AnsweredFreely off s) := by
  rw [hostRead_at ha, hv]
  rfl

/-- A read changes no register (R58). -/
theorem answerRead_sameRegs (off : Offset) (s : State) (r : Option Word) : SameRegs (answerRead off s r) s := by
  cases r <;> rfl

theorem pollStatus_sameRegs (s : State) : SameRegs (pollStatus s) s := by
  obtain h | h := pollStatus_cases s <;> rw [h] <;> rfl

theorem requireNoError_sameRegs (s : State) : SameRegs (requireNoError s) s := by
  obtain ⟨-, h⟩ | ⟨-, h⟩ := requireNoError_cases s <;> rw [h] <;> rfl

theorem SameRegs.ecode {s t : State} (h : SameRegs t s) : t.ecode = s.ecode :=
  congrArg (a₁ := regsOf t) (a₂ := regsOf s) State.ecode h

/-! ### Two views of the registers: those that the machine alone writes, and the host's operands -/

/-- The registers that only completions and reset write: KV, RK, DOUT, INVAL and VV (R27, R30 to R33). -/
structure Outputs where
  kv0 : Bool
  kv1 : Bool
  rk0 : RoundKeys
  rk1 : RoundKeys
  doutHi : Word
  doutLo : Word
  invalHi : Word
  invalLo : Word
  vv : Byte

/-- The output registers of a state. -/
def outputs (s : State) : Outputs where
  kv0 := s.kv0
  kv1 := s.kv1
  rk0 := s.rk0
  rk1 := s.rk1
  doutHi := s.doutHi
  doutLo := s.doutLo
  invalHi := s.invalHi
  invalLo := s.invalLo
  vv := s.vv

theorem SameRegs.outputs {s t : State} (h : SameRegs t s) : outputs t = outputs s :=
  congrArg (a₁ := regsOf t) (a₂ := regsOf s) Machine.outputs h

/-- KEY, DIN and SUFFIX (R25, R26, R29). -/
structure HostOperands where
  keyLo : Word
  keyHi : Word
  dinLo : Word
  dinHi : Word
  suffix : Word

/-- The host's operands in a state. -/
def operandsOf (s : State) : HostOperands where
  keyLo := s.keyLo
  keyHi := s.keyHi
  dinLo := s.dinLo
  dinHi := s.dinHi
  suffix := s.suffix

/-- `s` with other operands of the host. -/
def withOperands (o : HostOperands) (s : State) : State :=
  { s with keyLo := o.keyLo, keyHi := o.keyHi, dinLo := o.dinLo, dinHi := o.dinHi, suffix := o.suffix }

/-- The operands with `v` in the register `r`, if it is one of them. -/
def HostOperands.set (o : HostOperands) (r : Reg) (v : Word) : HostOperands :=
  match r with
  | .keyLo => { o with keyLo := v }
  | .keyHi => { o with keyHi := v }
  | .dinLo => { o with dinLo := v }
  | .dinHi => { o with dinHi := v }
  | .suffix => { o with suffix := v }
  | _ => o

/-- KEY, DIN and SUFFIX in the map (R21). -/
def operandRegs : List Reg := [.keyLo, .keyHi, .dinLo, .dinHi, .suffix]

/-- The operand in the register `r`, if it is one of them. -/
def HostOperands.get (o : HostOperands) (r : Reg) : Word :=
  match r with
  | .keyLo => o.keyLo
  | .keyHi => o.keyHi
  | .dinLo => o.dinLo
  | .dinHi => o.dinHi
  | .suffix => o.suffix
  | _ => 0

theorem eq_of_mem_operandRegs {r : Reg} (hr : r ∈ operandRegs) :
    r = .keyLo ∨ r = .keyHi ∨ r = .dinLo ∨ r = .dinHi ∨ r = .suffix := by
  simpa [operandRegs] using hr

theorem HostOperands.get_set_same {r : Reg} (hr : r ∈ operandRegs) (o : HostOperands) (v : Word) :
    (o.set r v).get r = v := by
  obtain rfl | rfl | rfl | rfl | rfl := eq_of_mem_operandRegs hr <;> rfl

theorem HostOperands.get_set_other {q r : Reg} (h : r ≠ q) (o : HostOperands) (v : Word) :
    (o.set r v).get q = o.get q := by
  cases r with
  | keyLo | keyHi | dinLo | dinHi | suffix => cases q <;> simp [set, get] at h ⊢
  | _ => rfl

theorem SameRegs.operandsOf {s t : State} (h : SameRegs t s) : operandsOf t = operandsOf s :=
  congrArg (a₁ := regsOf t) (a₂ := regsOf s) Machine.operandsOf h

/-! ### What a host write can do -/

/-- Everything that a write of `v` to the register `r` can make of the state `s` (R57, R200, R205). -/
inductive WriteEffect (v : Word) (s : State) (r : Reg) : State → Prop
  /-- The write has no effect. -/
  | ignored : WriteEffect v s r s
  /-- A command, or a write of CKSUM, is refused. -/
  | refusal (c : CmdError) : WriteEffect v s r (raiseError c s)
  /-- ERR and ECODE are cleared. -/
  | clearing : WriteEffect v s r (clearError s)
  /-- A command is accepted. -/
  | latch (i : Instr) (hw : i.wellFormed = true) (hk : needsKey i = true → bankValid s i.fields.bank = true) :
      WriteEffect v s r (latchCommand i s)
  /-- CKSUM is written while BUSY = 0. -/
  | cksum (hr : r = .cksum) (hp : s.pend = none) : WriteEffect v s r (writeCksum v s)
  /-- An operand is written. -/
  | operand (hr : r ∈ operandRegs) : WriteEffect v s r (withOperands ((operandsOf s).set r v) s)

theorem accept_effect (w : Word) (s : State) (r : Reg) : WriteEffect w s r (accept w s) := by
  obtain ⟨c, h⟩ | ⟨i, hd, -, hk, h⟩ := accept_cases w s
  · exact h ▸ .refusal c
  · exact h ▸ .latch i (decode_wellFormed hd) hk

theorem writeStatus_effect (v : Word) (s : State) (r : Reg) : WriteEffect v s r (writeStatus v s) := by
  unfold writeStatus
  split
  · exact .clearing
  · exact .ignored

theorem hostWriteCksum_effect (v : Word) (s : State) : WriteEffect v s .cksum (hostWriteCksum v s) := by
  unfold hostWriteCksum
  split
  · exact .refusal .ovr
  · next hb => exact .cksum rfl (by simpa [busy] using hb)

theorem writeReg_effect (v : Word) (s : State) (r : Reg) : WriteEffect v s r (writeReg v s r) := by
  cases r with
  | status => exact writeStatus_effect v s _
  | cmd => exact accept_effect v s _
  | cksum => exact hostWriteCksum_effect v s
  | keyLo | keyHi | dinLo | dinHi | suffix => exact .operand (by decide)
  | _ => exact .ignored

/-- A write of an operand register changes that operand and nothing else (R57). -/
theorem writeReg_eq_withOperands {r : Reg} (hr : r ∈ operandRegs) (v : Word) (s : State) :
    writeReg v s r = withOperands ((operandsOf s).set r v) s := by
  obtain rfl | rfl | rfl | rfl | rfl := eq_of_mem_operandRegs hr <;> rfl

/-- No write of the host reaches an output register. -/
theorem WriteEffect.outputs {v : Word} {s t : State} {r : Reg} (h : WriteEffect v s r t) : outputs t = outputs s := by
  cases h with
  | refusal c => simp [Machine.outputs]
  | _ => rfl

/-- A write reaches its own register of the host's operands and no other. -/
theorem WriteEffect.operandsOf {v : Word} {s t : State} {r : Reg} (h : WriteEffect v s r t) :
    operandsOf t = operandsOf s ∨ (r ∈ operandRegs ∧ operandsOf t = (operandsOf s).set r v) := by
  cases h with
  | refusal c => simp [Machine.operandsOf]
  | operand hr => exact .inr ⟨hr, rfl⟩
  | _ => exact .inl rfl

/-- CKSUM takes the written value by a write of its own while BUSY = 0 (R205). -/
theorem WriteEffect.cksum_cases {v : Word} {s t : State} {r : Reg} (h : WriteEffect v s r t) :
    t.cksum = s.cksum ∨ (r = .cksum ∧ s.pend = none ∧ t.cksum = v) := by
  cases h with
  | refusal c => simp
  | cksum hr hp => exact .inr ⟨hr, hp, rfl⟩
  | _ => exact .inl rfl

/-! ### The place of a register -/

/-- A named register stands at its one offset (R21). -/
theorem offsetOf_of_regAt {off : Offset} {r : Reg} (h : regAt off = r) (hr : r ≠ .reserved)
    (hk : ∀ b k, r ≠ .rk b k) : off = offsetOf r := by
  have hmap : ∀ q ∈ regMap, q.1 = (offsetOf q.2).toNat := by decide
  exact BitVec.eq_of_toNat_eq (hmap _ (regAt_named h hr hk))

/-! ### The ways in which a step changes registers -/

/-- An action from outside is a write to a register or a reset, or it changes no register (R58, R230). -/
theorem applyInput_cases {a : Input} {s t : State} (h : applyInput s a = .next t) :
    (∃ off v, a = .write off 4 v ∧ WriteEffect v s (regAt off) t) ∨ (a = .reset ∧ t = hardwareReset s) ∨
      SameRegs t s := by
  cases a with
  | read off n =>
    obtain ⟨-, rfl⟩ := hostRead_next h
    exact .inr (.inr (answerRead_sameRegs ..))
  | write off n v =>
    obtain ⟨hok, rfl⟩ := hostWrite_next h
    obtain ⟨rfl, -⟩ : n = 4 ∧ off.toNat % 4 = 0 := by simpa [accessOk] using hok
    exact .inl ⟨off, v, rfl, writeReg_effect ..⟩
  | wait =>
    cases h
    exact .inr (.inr (pollStatus_sameRegs s))
  | require =>
    cases h
    exact .inr (.inr (requireNoError_sameRegs s))
  | reset =>
    cases h
    exact .inr (.inl ⟨rfl, rfl⟩)

/-- A step completes the pending command, or is a write of the host, or leaves the registers as reset does, or changes
none (R20). -/
theorem step_register_cases {s t : State} (h : step s = .next t) :
    (∃ p, s.pend = some p ∧ exec p.cmd s = .next t) ∨
    (∃ off v rest, s.inputs = .write off 4 v :: rest ∧ WriteEffect v (takeInput rest s) (regAt off) t) ∨
    (∃ rest, s.inputs = .reset :: rest ∧ SameRegs t State.reset) ∨
    SameRegs t s := by
  obtain ⟨p, hp, -, hx⟩ | ⟨-, rfl⟩ | ⟨a, rest, hi, ha⟩ := step_cases h
  · exact .inl ⟨p, hp, hx⟩
  · exact .inr (.inr (.inr rfl))
  · obtain ⟨off, v, rfl, hw⟩ | ⟨rfl, rfl⟩ | hs := applyInput_cases ha
    · exact .inr (.inl ⟨off, v, rest, hi, hw⟩)
    · exact .inr (.inr (.inl ⟨rest, hi, rfl⟩))
    · exact .inr (.inr (.inr hs))

/-- Reset apart, a step that completes no command leaves the output registers. -/
theorem step_outputs {s t : State} (h : step s = .next t) :
    (∃ p, s.pend = some p ∧ exec p.cmd s = .next t) ∨ (∃ rest, s.inputs = .reset :: rest ∧ SameRegs t State.reset) ∨
      outputs t = outputs s := by
  obtain hx | ⟨off, v, rest, -, hw⟩ | hr | hs := step_register_cases h
  · exact .inl hx
  · exact .inr (.inr hw.outputs)
  · exact .inr (.inl hr)
  · exact .inr (.inr hs.outputs)

/-! ### What a completion does to each register -/

/-- A completion keys and fills a bank if it is a KSETUP of that bank, and leaves it otherwise (R32, R33). -/
theorem exec_bank {i : Instr} {s t : State} (h : exec i s = .next t) (b : Bank) :
    (∃ f, i = .ksetup f ∧ f.bank = b ∧ bankValid t b = true ∧
      bankKeys t b = keySchedule (masterKey f.ksrc (latchedOperands s))) ∨
    (bankValid t b = bankValid s b ∧ bankKeys t b = bankKeys s b) := by
  cases i with
  | ksetup f =>
    cases h
    by_cases hb : b = f.bank
    · subst hb
      exact .inl ⟨f, rfl, rfl, bankValid_setBankValid_same .., (bankKeys_setBankValid ..).trans
        (bankKeys_setBankKeys_same ..)⟩
    · exact .inr ⟨(bankValid_setBankValid_other hb _).trans (bankValid_setBankKeys ..),
        (bankKeys_setBankValid ..).trans (bankKeys_setBankKeys_other hb _ s)⟩
  | _ =>
    cases h
    cases b <;> exact .inr ⟨rfl, rfl⟩

/-- DOUT is written only by the commands that read a bank (R27). -/
theorem exec_dout {i : Instr} {s t : State} (h : exec i s = .next t) (hi : needsKey i = false) :
    t.doutHi = s.doutHi ∧ t.doutLo = s.doutLo := by
  cases i with
  | enc | dec | encfold | licasm => cases hi
  | _ =>
    cases h
    simp

/-- INVAL and VV are written only by LICASM (R30, R31). -/
theorem exec_inval_vv {i : Instr} {s t : State} (h : exec i s = .next t) (hi : i.op ≠ 0x07#8) :
    t.invalHi = s.invalHi ∧ t.invalLo = s.invalLo ∧ t.vv = s.vv := by
  cases i with
  | licasm => exact absurd rfl hi
  | _ =>
    cases h
    simp

/-- CKSUM is written only by CKCLR, FOLDB and ENCFOLD (R28). -/
theorem exec_cksum {i : Instr} {s t : State} (h : exec i s = .next t) (hi : i.op ∉ [0x04#8, 0x05#8, 0x06#8]) :
    t.cksum = s.cksum := by
  cases i with
  | ckclr | foldb | encfold => simp [Instr.op] at hi
  | _ =>
    cases h
    simp

/-- VV is left as it is, or takes an absolute value (R31, R170). -/
theorem exec_vv {i : Instr} {s t : State} (h : exec i s = .next t) : t.vv = s.vv ∨ ∃ x, t.vv = abs8 x := by
  cases i with
  | licasm =>
    cases h
    exact .inr ⟨_, rfl⟩
  | _ =>
    cases h
    simp

/-- The absolute value of a byte is at most 0x80 (R173). -/
theorem abs8_toNat_le (x : Byte) : (abs8 x).toNat ≤ 0x80 := by
  unfold abs8
  split
  · bv_omega
  · bv_omega

/-! ### A completion and the host's operands -/

/-- No completion writes the host's operands (R100). -/
theorem exec_operandsOf {i : Instr} {s t : State} (h : exec i s = .next t) : operandsOf t = operandsOf s := by
  cases i <;> cases h <;> simp [operandsOf]

/-- A pending command's completion reads the latch, and none of the host's operands (R34, R64). -/
theorem exec_withOperands {i : Instr} {s t : State} {p : Pending} (hp : s.pend = some p) (h : exec i s = .next t)
    (o : HostOperands) : exec i (withOperands o s) = .next (withOperands o t) := by
  have hl : latchedOperands (withOperands o s) = latchedOperands s := by simp [latchedOperands, withOperands, hp]
  cases i with
  | ksetup f =>
    cases h
    simp only [exec, execKsetup, hl]
    cases f.bank <;> rfl
  | enc f | dec f | encfold f | licasm f =>
    cases h
    simp only [exec, execEnc, execDec, execEncfold, execLicasm, hl]
    cases f.bank <;> rfl
  | nop | ckclr | foldb =>
    cases h
    rfl

end Sys2Proof.Machine
end

section
/-!
PROOFS. The invariant of the machine (10_state.md R23, R31, R34), update by update and then step by step.
-/

namespace Sys2Proof.Machine

/-- The invariant speaks of six fields only. -/
theorem StateInv.congr {s t : State} (hs : StateInv s) (herr : t.err = s.err) (hcode : t.ecode = s.ecode)
    (hpend : t.pend = s.pend) (hkv0 : t.kv0 = s.kv0) (hkv1 : t.kv1 = s.kv1) (hvv : t.vv = s.vv) : StateInv t where
  noError := by rw [herr, hcode]; exact hs.noError
  someError := by rw [herr, hcode]; exact hs.someError
  pendWellFormed := by rw [hpend]; exact hs.pendWellFormed
  pendKeyed p hp hn := (bankValid_congr hkv0 hkv1 _).trans (hs.pendKeyed p (hpend ▸ hp) hn)
  vvRange := by rw [hvv]; exact hs.vvRange

theorem StateInv.of_sameRegs {s t : State} (hs : StateInv s) (h : SameRegs t s) : StateInv t :=
  hs.congr h.err h.ecode h.pend h.kv0 h.kv1 h.vv

theorem stateInv_reset : StateInv State.reset where
  noError _ := rfl
  someError := nofun
  pendWellFormed := nofun
  pendKeyed := nofun
  vvRange := by decide

/-- The codes of the errors are 1 to 4 (R201). -/
theorem errorCode_range (c : CmdError) : 1 ≤ (errorCode c).toNat ∧ (errorCode c).toNat ≤ 4 := by
  cases c <;> decide

theorem StateInv.raiseError {s : State} (hs : StateInv s) (c : CmdError) : StateInv (raiseError c s) := by
  cases he : s.err with
  | false =>
    obtain ⟨herr, hcode⟩ := raiseError_of_clear he c
    exact {
      noError := fun h => absurd h (by simp [herr])
      someError := fun _ => hcode ▸ errorCode_range c
      pendWellFormed := by simpa using hs.pendWellFormed
      pendKeyed := fun p hp hn => (bankValid_congr (by simp) (by simp) _).trans (hs.pendKeyed p (by simpa using hp) hn)
      vvRange := by simpa using hs.vvRange }
  | true =>
    obtain ⟨herr, hcode⟩ := raiseError_of_set he c
    exact hs.congr (herr.trans he.symm) hcode (by simp) (by simp) (by simp) (by simp)

theorem StateInv.clearError {s : State} (hs : StateInv s) : StateInv (clearError s) where
  noError _ := rfl
  someError := nofun
  pendWellFormed := hs.pendWellFormed
  pendKeyed p hp hn := (bankValid_congr rfl rfl _).trans (hs.pendKeyed p hp hn)
  vvRange := hs.vvRange

theorem StateInv.latchCommand {s : State} {i : Instr} (hs : StateInv s) (hw : i.wellFormed = true)
    (hk : needsKey i = true → bankValid s i.fields.bank = true) : StateInv (latchCommand i s) where
  noError := hs.noError
  someError := hs.someError
  pendWellFormed p hp := by cases hp; exact hw
  pendKeyed p hp hn := by cases hp; exact (bankValid_congr rfl rfl _).trans (hk hn)
  vvRange := hs.vvRange

theorem WriteEffect.stateInv {v : Word} {s t : State} {r : Reg} (h : WriteEffect v s r t) (hs : StateInv s) :
    StateInv t := by
  cases h with
  | ignored => exact hs
  | refusal c => exact hs.raiseError c
  | clearing => exact hs.clearError
  | latch i hw hk => exact hs.latchCommand hw hk
  | cksum | operand => exact hs.congr rfl rfl rfl rfl rfl rfl

/-- A completion leaves nothing pending and the error as it was, and VV in its range. -/
theorem exec_stateInv {i : Instr} {s t : State} (h : exec i s = .next t) (hs : StateInv s) : StateInv t := by
  obtain ⟨herr, hcode, -⟩ := exec_keeps h
  have hpend : ∀ p, t.pend ≠ some p := by simp [exec_pend h]
  exact {
    noError := by rw [herr, hcode]; exact hs.noError
    someError := by rw [herr, hcode]; exact hs.someError
    pendWellFormed := fun p hp => absurd hp (hpend p)
    pendKeyed := fun p hp => absurd hp (hpend p)
    vvRange := by
      obtain hv | ⟨x, hv⟩ := exec_vv h
      · rw [hv]; exact hs.vvRange
      · rw [hv]; exact abs8_toNat_le x }

/-- Settles O50: each way in which a step changes registers keeps the invariant. -/
theorem stepKeepsInvariant : Obligations.StepKeepsInvariant := by
  intro s t hs h
  obtain ⟨p, -, hx⟩ | ⟨off, v, rest, -, hw⟩ | ⟨-, -, hr⟩ | hsame := step_register_cases h
  · exact exec_stateInv hx hs
  · exact hw.stateInv (hs.of_sameRegs rfl)
  · exact stateInv_reset.of_sameRegs hr
  · exact hs.of_sameRegs hsame

end Sys2Proof.Machine
end

section
/-!
PROOFS. The registers of 10_state.md: ID and STATUS, the banks, the results, the operands and the accumulator.
-/

namespace Sys2Proof.Machine

/-! ### ID and STATUS -/

/-- Settles O3: ID's offset holds the register that has one value and takes no write. -/
theorem idReadsItsConstant : Obligations.IdReadsItsConstant := by
  intro s v
  have hid : regAt 0x000#12 = .id := by decide
  refine ⟨hostRead_answered rfl (by rw [hid]; rfl), ?_, by decide, by decide⟩
  rw [hostWrite_at rfl, hid]
  rfl

/-- STATUS.BUSY is 1 exactly when a command is pending (R34). -/
theorem statusWord_busy (s : State) : (statusWord s).getLsbD 0 = s.pend.isSome := statusWord_getLsbD s 0

theorem statusWord_kv0 (s : State) : (statusWord s).getLsbD 1 = s.kv0 := statusWord_getLsbD s 1

theorem statusWord_kv1 (s : State) : (statusWord s).getLsbD 2 = s.kv1 := statusWord_getLsbD s 2

theorem statusWord_err (s : State) : (statusWord s).getLsbD 3 = s.err := statusWord_getLsbD s 3

theorem statusWord_ecode (s : State) : (statusWord s).extractLsb' 4 4 = s.ecode := by
  apply BitVec.eq_of_getLsbD_eq
  intro i hi
  have hplace : ¬ 4 + i = 0 ∧ ¬ 4 + i = 1 ∧ ¬ 4 + i = 2 ∧ ¬ 4 + i = 3 ∧ 4 + i < 8 := by omega
  simp [statusWord_getLsbD, hi, hplace]

/-- The reserved bits read 0 (R23). -/
theorem statusWord_reserved (s : State) : (statusWord s).extractLsb' 8 24 = 0 := by
  apply BitVec.eq_of_getLsbD_eq
  intro i hi
  have hplace : ¬ 8 + i = 0 ∧ ¬ 8 + i = 1 ∧ ¬ 8 + i = 2 ∧ ¬ 8 + i = 3 ∧ ¬ 8 + i < 8 := by omega
  simp [BitVec.getLsbD_extractLsb', statusWord_getLsbD, hplace]

/-- Settles O4: the bits of the status word one by one, and the invariant for the legal codes. -/
theorem statusFields : Obligations.StatusFields := by
  have hreg : regAt 0x004#12 = .status := by decide
  refine ⟨?read, ?fields, ?legal, by decide, ?write⟩
  case read => exact fun s => hostRead_answered rfl (by rw [hreg]; rfl)
  case fields =>
    exact fun s => ⟨statusWord_busy s, statusWord_kv0 s, statusWord_kv1 s, statusWord_err s, statusWord_ecode s,
      statusWord_reserved s⟩
  case legal =>
    intro s hs
    rw [statusWord_ecode, statusWord_err]
    refine ⟨?_, hs.noError⟩
    cases he : s.err with
    | false => simp [hs.noError he]
    | true => exact (hs.someError he).2
  case write =>
    intro s v
    rw [hostWrite_at rfl, hreg]
    rfl

/-! ### Acceptance -/

/-- Settles O21: each branch of acceptance by its own rule. -/
theorem commandAcceptance : Obligations.CommandAcceptance := by
  intro w s
  have hreg : regAt 0x008#12 = .cmd := by decide
  refine ⟨?write, hostRead_answered rfl (by rw [hreg]; rfl), accept_of_busy w, fun c => accept_of_illegal, ?unkeyed,
    ?keyed, fun c => raiseError_frame c s⟩
  case write =>
    rw [hostWrite_at rfl, hreg]
    rfl
  case unkeyed =>
    intro i hp hd hop hk
    exact accept_of_unkeyed hp hd ((needsKey_iff_op i).mpr hop) hk
  case keyed =>
    intro i hp hd hk
    rw [accept_of_keyed hp hd fun hn => hk ((needsKey_iff_op i).mp hn)]
    exact ⟨accepted_latchCommand i s, statusWord_busy _⟩

/-- Settles O26: a completion reads none of the host's operands and leaves them, so the write commutes with it. -/
theorem latchedOperandsAreIsolated : Obligations.LatchedOperandsAreIsolated := by
  intro s p r v hp hr
  obtain ⟨t, h⟩ := exec_answers p.cmd s
  refine ⟨t, h, ?_⟩
  rw [writeReg_eq_withOperands hr, writeReg_eq_withOperands hr, exec_operandsOf h]
  exact exec_withOperands hp h _

/-! ### Banks and results -/

/-- A bank and its KV change only by a KSETUP's completion and by reset (R32, R33). -/
theorem step_bank {s t : State} (h : step s = .next t) (b : Bank) :
    (∃ p f, s.pend = some p ∧ p.cmd = .ksetup f ∧ f.bank = b ∧ bankValid t b = true ∧
      bankKeys t b = keySchedule (masterKey f.ksrc p.ops)) ∨
    (∃ rest, s.inputs = .reset :: rest ∧ bankValid t b = false) ∨
    (bankValid t b = bankValid s b ∧ bankKeys t b = bankKeys s b) := by
  obtain ⟨p, hp, hx⟩ | ⟨rest, hi, hr⟩ | ho := step_outputs h
  · obtain ⟨f, hf, hb, hv, hk⟩ | hsame := exec_bank hx b
    · exact .inl ⟨p, f, hp, hf, hb, hv, by rw [hk, latchedOperands_of_pend hp]⟩
    · exact .inr (.inr hsame)
  · exact .inr (.inl ⟨rest, hi, (bankValid_congr hr.kv0 hr.kv1 b).trans (by cases b <;> rfl)⟩)
  · exact .inr (.inr ⟨bankValid_congr (congrArg Outputs.kv0 ho) (congrArg Outputs.kv1 ho) b,
      bankKeys_congr (congrArg Outputs.rk0 ho) (congrArg Outputs.rk1 ho) b⟩)

/-- An RK word of an unkeyed bank has no value to read (R33). -/
theorem readValue_rk_of_unkeyed {s : State} {b : Bank} (hb : bankValid s b = false) (k : Fin 26) :
    readValue s (.rk b k) = none := by
  simp [readValue, hb]

/-- Settles O52: KV follows the ways in which a bank changes, and guards the reads and the acceptance. -/
theorem keyValidBits : Obligations.KeyValidBits := by
  refine ⟨?reset, ?ksetup, ?kept, ?set, ?read, ?accept⟩
  case reset => intro b; cases b <;> rfl
  case ksetup =>
    intro f s t h
    cases h
    exact bankValid_setBankValid_same ..
  case kept =>
    intro s t b h hv hnr
    obtain ⟨-, -, -, -, -, hkeyed, -⟩ | ⟨rest, hi, -⟩ | ⟨hsame, -⟩ := step_bank h b
    · exact hkeyed
    · exact absurd hi (hnr rest)
    · exact hsame.trans hv
  case set =>
    intro s t b h hv hv'
    obtain ⟨p, f, hp, hf, hb, -⟩ | ⟨-, -, hunkeyed⟩ | ⟨hsame, -⟩ := step_bank h b
    · exact ⟨p, f, hp, hf, hb⟩
    · simp [hv'] at hunkeyed
    · simp [hv, hv'] at hsame
  case read =>
    intro s b k off hb hreg ha
    exact hostRead_free ha (hreg ▸ readValue_rk_of_unkeyed hb k)
  case accept =>
    intro s w i hp hd hop hk
    exact accept_of_unkeyed hp hd ((needsKey_iff_op i).mpr hop) hk

/-- Settles O53: of the ways in which a bank changes, only a KSETUP's completion and reset can change its words. -/
theorem bankChangesOnlyByKsetup : Obligations.BankChangesOnlyByKsetup := by
  intro s t b h hne
  obtain ⟨p, f, hp, hf, hb, -, hk⟩ | ⟨rest, hi, -⟩ | ⟨-, hsame⟩ := step_bank h b
  · exact .inl ⟨p, f, hp, hf, hb, hk⟩
  · exact .inr ⟨rest, hi⟩
  · exact absurd hsame hne

/-- Settles O54: no write of the host reaches a result register, and a completion reaches only those of its command. -/
theorem resultsChangeOnlyByTheirCommands : Obligations.ResultsChangeOnlyByTheirCommands := by
  intro s t h hnr
  obtain ⟨p, hp, hx⟩ | ⟨rest, hi, -⟩ | ho := step_outputs h
  · constructor
    · intro hne
      refine ⟨p, hp, (needsKey_iff_op _).mp ?_⟩
      by_contra hn
      have hsame := exec_dout hx (by simpa using hn)
      simp [hsame] at hne
    · intro hne
      refine ⟨p, hp, ?_⟩
      by_contra hn
      have hsame := exec_inval_vv hx hn
      simp [hsame] at hne
  · exact absurd hi (hnr rest)
  · have hdout : t.doutHi = s.doutHi ∧ t.doutLo = s.doutLo :=
      ⟨congrArg Outputs.doutHi ho, congrArg Outputs.doutLo ho⟩
    have hinval : t.invalHi = s.invalHi ∧ t.invalLo = s.invalLo ∧ t.vv = s.vv :=
      ⟨congrArg Outputs.invalHi ho, congrArg Outputs.invalLo ho, congrArg Outputs.vv ho⟩
    simp [hdout, hinval]

/-! ### The host's operands and CKSUM -/

/-- A step that changes an operand is the host's write of the new value to it, reset apart (R25, R26, R29). -/
theorem step_operand {s t : State} {q : Reg} (hq : q ∈ operandRegs) (h : step s = .next t)
    (hnr : ∀ rest, s.inputs ≠ .reset :: rest) (hne : (operandsOf t).get q ≠ (operandsOf s).get q) :
    ∃ rest, s.inputs = .write (offsetOf q) 4 ((operandsOf t).get q) :: rest := by
  obtain ⟨p, -, hx⟩ | ⟨off, v, rest, hi, hw⟩ | ⟨rest, hi, -⟩ | hs := step_register_cases h
  · exact absurd (congrArg (·.get q) (exec_operandsOf hx)) hne
  · obtain hsame | ⟨-, hset⟩ := hw.operandsOf
    · exact absurd (congrArg (·.get q) hsame) hne
    · have hreg : regAt off = q := by
        by_contra hr
        exact hne (by rw [hset, HostOperands.get_set_other hr]; rfl)
      have hoff : off = offsetOf q := by
        refine offsetOf_of_regAt hreg ?_ ?_
        · rintro rfl; simp [operandRegs] at hq
        · rintro b k rfl; simp [operandRegs] at hq
      exact ⟨rest, by rw [hi, hset, hreg, HostOperands.get_set_same hq, hoff]⟩
  · exact absurd hi (hnr rest)
  · exact absurd (congrArg (·.get q) hs.operandsOf) hne

/-- A step that changes CKSUM completes a command that writes it, or is the host's write of the new value with nothing
pending, reset apart (R28, R205). -/
theorem step_cksum {s t : State} (h : step s = .next t) (hnr : ∀ rest, s.inputs ≠ .reset :: rest)
    (hne : t.cksum ≠ s.cksum) :
    (∃ p, s.pend = some p ∧ p.cmd.op ∈ [0x04#8, 0x05#8, 0x06#8]) ∨
    (s.pend = none ∧ ∃ rest, s.inputs = .write (offsetOf .cksum) 4 t.cksum :: rest) := by
  obtain ⟨p, hp, hx⟩ | ⟨off, v, rest, hi, hw⟩ | ⟨rest, hi, -⟩ | hs := step_register_cases h
  · refine .inl ⟨p, hp, ?_⟩
    by_contra hn
    exact hne (exec_cksum hx hn)
  · obtain hsame | ⟨hreg, hp, hv⟩ := hw.cksum_cases
    · exact absurd hsame hne
    · exact .inr ⟨hp, rest, by rw [hi, hv, offsetOf_of_regAt hreg nofun nofun]⟩
  · exact absurd hi (hnr rest)
  · exact absurd hs.cksum hne

/-- Settles O55: the rule of an operand's change for each of the five operands, and that of CKSUM's. -/
theorem operandsChangeOnlyByHostWrites : Obligations.OperandsChangeOnlyByHostWrites := by
  intro s t h hnr
  exact ⟨step_operand (q := .keyLo) (by decide) h hnr, step_operand (q := .keyHi) (by decide) h hnr,
    step_operand (q := .dinLo) (by decide) h hnr, step_operand (q := .dinHi) (by decide) h hnr,
    step_operand (q := .suffix) (by decide) h hnr, step_cksum h hnr⟩

/-! ### Whose turn a step is, and the placing of a word -/

theorem step_of_turn {s : State} {p : Pending} (hp : s.pend = some p) (ht : sequencerTurn s = true) :
    step s = exec p.cmd s := by
  simp [step, hp, ht]

/-- The sequencer's turn comes at the end of the wait or of the host's actions (R100, R242). -/
theorem sequencerTurn_iff (s : State) : sequencerTurn s = true ↔ s.countdown = 0 ∨ s.inputs = [] := by
  simp [sequencerTurn]

/-- Settles O27: the two ways in which the sequencer's turn comes, and the host's action otherwise. -/
theorem stepRunsThePendingCommand : Obligations.StepRunsThePendingCommand := by
  refine ⟨fun s p => step_of_turn, ?noActions, ?waited, ?host, ?idle⟩
  case noActions =>
    intro s p hp hi
    exact step_of_turn hp ((sequencerTurn_iff s).mpr (.inr hi))
  case waited =>
    intro s p hp hc
    exact step_of_turn hp ((sequencerTurn_iff s).mpr (.inl hc))
  case host =>
    rintro s a rest hi (hp | hc)
    · exact step_idle hp hi
    · have hturn : sequencerTurn s = false := by simp [sequencerTurn, hc, hi]
      rw [step_of_not_turn hturn, hostStep, hi]
      rfl
  case idle =>
    intro s hp hi
    simp [step, hostStep, hp, hi]

theorem withFetchWord_toNat (s : State) (w : Word) : s.withFetchWord 32 w.toNat = placeCommand w s := by
  rw [State.withFetchWord, Nat.mod_eq_of_lt w.isLt, BitVec.ofNat_toNat, BitVec.setWidth_eq]

/-- A word that decodes is placed as acceptance latches it, with no wait left. -/
theorem placeCommand_of_cmd {w : Word} {i : Instr} (hd : decode w = .cmd i) (s : State) :
    (placeCommand w s).pend = some { cmd := i, ops := captureOperands s } ∧ (placeCommand w s).countdown = 0 := by
  simp [placeCommand, hd]

/-- Settles O28: the placed command is pending with no wait left, so the step is its completion. -/
theorem fetchWordRunsNext : Obligations.FetchWordRunsNext := by
  intro s w i hd
  rw [withFetchWord_toNat]
  obtain ⟨hpend, hwait⟩ := placeCommand_of_cmd hd s
  exact ⟨hpend, step_of_turn hpend ((sequencerTurn_iff _).mpr (.inl hwait))⟩

end Sys2Proof.Machine
end

section
/-!
PROOFS. The register window (20_memory.md): the registers a write reaches, what each kind of register answers to a read,
and the accesses that are refused.
-/

namespace Sys2Proof.Machine

/-! ### Writes -/

/-- The registers on which a write can have an effect (R57). -/
def writableRegs : List Reg := operandRegs ++ [.cksum, .status, .cmd]

/-- A write to any other register is ignored (R53, R57). -/
theorem writeReg_of_not_writable {r : Reg} (hr : r ∉ writableRegs) (v : Word) (s : State) : writeReg v s r = s := by
  cases r with
  | keyLo | keyHi | dinLo | dinHi | suffix | cksum | status | cmd => exact absurd (by decide) hr
  | _ => rfl

/-- Where the writable registers stand (R21). -/
theorem offsetOf_writable : ∀ r ∈ writableRegs,
    (offsetOf r).toNat ∈ [0x004, 0x008, 0x010, 0x014, 0x018, 0x01C, 0x028, 0x02C] := by decide

/-- An offset that holds a writable register is that register's one offset (R21). -/
theorem eq_offsetOf_of_writable {off : Offset} (h : regAt off ∈ writableRegs) : off = offsetOf (regAt off) := by
  refine offsetOf_of_regAt rfl ?_ ?_
  · intro hr
    simp [hr, writableRegs, operandRegs] at h
  · intro b k hr
    simp [hr, writableRegs, operandRegs] at h

/-- A write at an offset of no writable register changes nothing (R53, R57). -/
theorem hostWrite_ignored {off : Offset} (ha : off.toNat % 4 = 0) (hoff : ∀ r ∈ writableRegs, off ≠ offsetOf r)
    (v : Word) (s : State) : hostWrite off 4 v s = .next s := by
  have hr : regAt off ∉ writableRegs := fun h => hoff _ h (eq_offsetOf_of_writable h)
  rw [hostWrite_at ha, writeReg_of_not_writable hr]

/-- A write is ignored at every offset but the eight of the writable registers (R57). -/
theorem hostWrite_ignored_of_toNat {off : Offset} (ha : off.toNat % 4 = 0)
    (hoff : off.toNat ∉ [0x004, 0x008, 0x010, 0x014, 0x018, 0x01C, 0x028, 0x02C]) (v : Word) (s : State) :
    hostWrite off 4 v s = .next s :=
  hostWrite_ignored ha (fun r hr he => hoff (he ▸ offsetOf_writable r hr)) v s

/-- Settles O5: at the offset of a writable register the write is that register's; at any other it is ignored. -/
theorem hostWriteEffects : Obligations.HostWriteEffects := by
  intro off v s ha
  by_cases hw : ∃ r ∈ writableRegs, off = offsetOf r
  · obtain ⟨r, hr, rfl⟩ := hw
    rw [hostWrite_at ha]
    cases r with
    | keyLo | keyHi | dinLo | dinHi | suffix | cksum | status | cmd => rfl
    | _ => simp [writableRegs, operandRegs] at hr
  · have hoff : ∀ r ∈ writableRegs, off ≠ offsetOf r := by simpa using hw
    rw [hostWrite_ignored ha hoff]
    simp only [writableRegs, operandRegs, List.cons_append, List.nil_append, List.forall_mem_cons, offsetOf,
      statusOffset, cmdOffset] at hoff
    simp [hoff]

/-! ### The reserved offsets -/

/-- The reserved ranges of the map (R21). -/
theorem regAt_reserved {off : Offset} (h : off.toNat = 0x00C ∨ (0x03C ≤ off.toNat ∧ off.toNat ≤ 0x0FC) ∨
    (0x168 ≤ off.toNat ∧ off.toNat ≤ 0x1FC) ∨ 0x268 ≤ off.toNat) : regAt off = .reserved := by
  have hbank0 : ¬ (0x100 ≤ off.toNat ∧ off.toNat < 0x168) := by omega
  have hbank1 : ¬ (0x200 ≤ off.toNat ∧ off.toNat < 0x268) := by omega
  have hmap : regMap.lookup off.toNat = none := by
    simp only [List.lookup_eq_none_iff, regMap, List.forall_mem_cons, bne_iff_ne, ne_eq, List.not_mem_nil,
      false_imp_iff, implies_true, and_true]
    omega
  simp only [regAt, dif_neg hbank0, dif_neg hbank1, hmap, Option.getD_none]

/-- Settles O6: the reserved and the read-only offsets are none of the writable ones, and the map has `reserved` at the
reserved ones. -/
theorem reservedAndReadOnlyOffsets : Obligations.ReservedAndReadOnlyOffsets := by
  intro off v s ha
  have hcmd : regAt 0x008#12 = .cmd := by decide
  refine ⟨fun hres => ⟨hostRead_answered ha (by rw [regAt_reserved hres]; rfl), ?reserved⟩,
    hostRead_answered rfl (by rw [hcmd]; rfl), fun hro => ?readOnly⟩
  case reserved =>
    refine hostWrite_ignored_of_toNat ha ?_ v s
    simp only [List.mem_cons, List.not_mem_nil, or_false]
    omega
  case readOnly =>
    refine hostWrite_ignored_of_toNat ha ?_ v s
    simp only [List.mem_cons, List.not_mem_nil, or_false] at hro ⊢
    omega

/-! ### Reads -/

/-- A result register is read as its value while nothing is pending and freely otherwise (R56). -/
theorem hostRead_result {off : Offset} {s : State} {v : Word} (ha : off.toNat % 4 = 0)
    (hv : readValue s (regAt off) = resultValue s v) :
    hostRead off 4 s = .next (if s.pend.isSome then AnsweredFreely off s else Answered off v s) := by
  cases hb : s.pend.isSome with
  | true => exact hostRead_free ha (by simp [hv, resultValue, busy, hb])
  | false => exact hostRead_answered ha (by simp [hv, resultValue, busy, hb])

/-- A round-key word is a result register of a valid bank, and is read freely in any other (R33, R56). -/
theorem hostRead_rk {off : Offset} {b : Bank} {k : Fin 26} (hreg : regAt off = .rk b k) (ha : off.toNat % 4 = 0)
    (s : State) : hostRead off 4 s = .next (if s.pend.isSome || !bankValid s b then AnsweredFreely off s
      else Answered off (bankKeys s b)[k] s) := by
  cases hk : bankValid s b with
  | false => simpa using hostRead_free ha (hreg ▸ readValue_rk_of_unkeyed hk k)
  | true => simpa using hostRead_result ha (by simp [hreg, readValue, hk])

/-- Settles O7: each register by its kind: always readable, a result register, or a round-key word. -/
theorem hostReadValues : Obligations.HostReadValues := by
  intro s
  refine ⟨hostRead_answered rfl rfl, hostRead_answered rfl rfl, hostRead_answered rfl rfl, hostRead_answered rfl rfl,
    hostRead_answered rfl rfl, hostRead_answered rfl rfl, hostRead_answered rfl rfl, ?results, ?roundKeys⟩
  case results =>
    simp only [List.forall_mem_cons, ← zext32_eq_setWidth]
    exact ⟨hostRead_result rfl rfl, hostRead_result rfl rfl, hostRead_result rfl rfl, hostRead_result rfl rfl,
      hostRead_result rfl rfl, hostRead_result rfl rfl, nofun⟩
  case roundKeys =>
    intro k
    obtain ⟨hreg0, ha0⟩ := regAt_rk0 k
    obtain ⟨hreg1, ha1⟩ := regAt_rk1 k
    exact ⟨hostRead_rk hreg0 ha0 s, hostRead_rk hreg1 ha1 s⟩

/-- A register is read from the registers alone, not from the model's own fields. -/
theorem SameRegs.readValue {s t : State} (h : SameRegs t s) (r : Reg) : readValue t r = readValue s r := by
  have hregs : ∀ u, Machine.readValue (regsOf u) r = Machine.readValue u r := fun u => by cases r <;> rfl
  rw [← hregs t, ← hregs s, h]

/-- Settles O10: a read that answers adds to the history and the draws only, so the registers are the same. -/
theorem readsHaveNoSideEffect : Obligations.ReadsHaveNoSideEffect := by
  intro off n s t h
  obtain ⟨-, rfl⟩ := hostRead_next h
  refine ⟨?_, (answerRead_sameRegs ..).readValue⟩
  cases readValue s (regAt off) <;> rfl

/-- An operand reads back as it was written (R61). -/
theorem readValue_writeReg_operand {r : Reg} (hr : r ∈ operandRegs) (v : Word) (s : State) :
    readValue (writeReg v s r) r = some v := by
  obtain rfl | rfl | rfl | rfl | rfl := eq_of_mem_operandRegs hr <;> rfl

/-- CKSUM reads back as it was written while nothing is pending (R61, R205). -/
theorem readValue_writeReg_cksum {s : State} (hp : s.pend = none) (v : Word) :
    readValue (writeReg v s .cksum) .cksum = some v := by
  simp [writeReg, hostWriteCksum, readValue, resultValue, busy, hp]

/-- Settles O11: the offsets are those of the operands and of CKSUM, which read back as they were written. -/
theorem registerReadsBackWrite : Obligations.RegisterReadsBackWrite := by
  intro off v s t hoff h
  obtain ⟨hok, rfl⟩ := hostWrite_next h
  have ha : off.toNat % 4 = 0 := by simpa [accessOk] using hok
  refine hostRead_answered ha ?_
  obtain hoperand | ⟨rfl, hp⟩ := hoff
  · have hplaces : ∀ o ∈ [0x010#12, 0x014#12, 0x018#12, 0x01C#12, 0x02C#12], regAt o ∈ operandRegs := by decide
    exact readValue_writeReg_operand (hplaces off hoperand) v s
  · have hreg : regAt 0x028#12 = .cksum := by decide
    rw [hreg]
    exact readValue_writeReg_cksum hp v

/-! ### Refused accesses -/

/-- The window takes 32-bit accesses at multiples of 4 (R52). -/
theorem accessOk_iff (off : Offset) (n : Nat) : accessOk off n = true ↔ n = 4 ∧ off.toNat % 4 = 0 := by
  simp [accessOk]

/-- Settles O8: the two cases of the check that reads and writes share. -/
theorem badAccessIsBusError : Obligations.BadAccessIsBusError := by
  intro off n v s
  constructor
  · intro hbad
    have hno : ¬ accessOk off n = true := by
      rw [accessOk_iff]
      omega
    exact ⟨if_neg hno, if_neg hno⟩
  · rintro ⟨rfl, ha⟩
    exact ⟨⟨_, hostRead_at ha⟩, _, hostWrite_at ha⟩

end Sys2Proof.Machine
end

section
/-!
PROOFS. The command encoding of 30_encoding.md: the six fields of an encoded word, the three outcomes of decoding, the
round trip between words and commands, and the fields that a command ignores.
-/

namespace Sys2Proof

/-! ### The fields of an encoded word (R80) -/

@[simp] theorem encode_opBits (i : Instr) : (encode i).extractLsb' 0 8 = i.op := by
  ext j hj
  grind [encode_getLsbD]

@[simp] theorem encode_bankBit (i : Instr) : (encode i).extractLsb' 8 1 = i.fields.bank.bit := by
  ext j hj
  grind [encode_getLsbD]

@[simp] theorem encode_ksrcBits (i : Instr) : (encode i).extractLsb' 9 2 = i.fields.ksrc.code := by
  ext j hj
  grind [encode_getLsbD]

@[simp] theorem encode_lowReserved (i : Instr) : (encode i).extractLsb' 11 5 = 0#5 := by
  ext j hj
  grind [encode_getLsbD]

@[simp] theorem encode_immBits (i : Instr) : (encode i).extractLsb' 16 8 = i.fields.imm8 := by
  ext j hj
  grind [encode_getLsbD]

@[simp] theorem encode_highReserved (i : Instr) : (encode i).extractLsb' 24 8 = 0#8 := by
  ext j hj
  grind [encode_getLsbD]

@[simp] theorem fieldsOf_encode (i : Instr) : fieldsOf (encode i) = i.fields := by
  simp [fieldsOf]

/-- A command is its opcode and its fields (R83). -/
theorem Instr.eq_of_op_of_fields {i j : Instr} (hop : i.op = j.op) (hf : i.fields = j.fields) : i = j := by
  have hsome : some i = some j := by rw [← Instr.ofOp_op i, hop, hf, Instr.ofOp_op]
  exact Option.some.inj hsome

theorem Instr.op_toNat_le (i : Instr) : i.op.toNat ≤ 7 := by
  cases i <;> simp [Instr.op]

/-- Only the opcode of KSETUP and its reserved key source are ill-formed together (R83, R86). -/
theorem Instr.wellFormed_eq (i : Instr) : i.wellFormed = !(i.op == 1#8 && i.fields.ksrc.code == 3#2) := by
  cases i with
  | ksetup f => obtain ⟨b, k, imm⟩ := f; cases k <;> rfl
  | _ => rfl

/-! ### The three outcomes of decoding (R85, R86, R88) -/

theorem decode_of_illop {w : Word} (h : 7 < (w.extractLsb' 0 8).toNat) : decode w = .illegal .illop := by
  rw [decode, Instr.ofOp_eq_none.2 h]

/-- With an opcode of the map, decoding answers by the command that the opcode and the fields of the word give: it is
refused when one of the three grounds of RSVD holds. -/
theorem decode_of_op_le {w : Word} (h : (w.extractLsb' 0 8).toNat ≤ 7) :
    ∃ i : Instr, i.op = w.extractLsb' 0 8 ∧ i.fields = fieldsOf w ∧
      decode w = if Machine.rsvdBits w then .illegal .rsvd else .cmd i := by
  have hsome : Instr.ofOp (w.extractLsb' 0 8).toNat (fieldsOf w) ≠ none := by
    rw [ne_eq, Instr.ofOp_eq_none]
    omega
  obtain ⟨i, hi⟩ := Option.ne_none_iff_exists'.1 hsome
  obtain ⟨hopNat, hf⟩ := Instr.ofOp_eq_some hi
  have hop : i.op = w.extractLsb' 0 8 := BitVec.eq_of_toNat_eq hopNat
  have hksrc : i.fields.ksrc.code = w.extractLsb' 9 2 := by simp [hf, fieldsOf]
  have hbits : Machine.rsvdBits w = (reservedSet w || !i.wellFormed) := by
    simp [Machine.rsvdBits, reservedSet, Instr.wellFormed_eq, hop, hksrc]
  refine ⟨i, hop, hf, ?_⟩
  rw [decode, hi, hbits]
  cases reservedSet w <;> cases hw : i.wellFormed <;> simp [hw]

theorem decode_of_rsvdBits {w : Word} (hop : (w.extractLsb' 0 8).toNat ≤ 7) (hr : Machine.rsvdBits w = true) :
    decode w = .illegal .rsvd := by
  obtain ⟨i, -, -, hd⟩ := decode_of_op_le hop
  rw [hd, if_pos hr]

/-- A word with an opcode of the map and no ground of RSVD decodes. -/
theorem decode_of_legal {w : Word} (hop : (w.extractLsb' 0 8).toNat ≤ 7) (hr : Machine.rsvdBits w = false) :
    ∃ i, decode w = .cmd i := by
  obtain ⟨i, -, -, hd⟩ := decode_of_op_le hop
  exact ⟨i, by simp [hd, hr]⟩

/-- What a word that decodes is made of: the opcode and the fields of its command, and no ground of RSVD. -/
theorem decode_cmd {w : Word} {i : Instr} (h : decode w = .cmd i) :
    i.op = w.extractLsb' 0 8 ∧ i.fields = fieldsOf w ∧ Machine.rsvdBits w = false := by
  by_cases hop : (w.extractLsb' 0 8).toNat ≤ 7
  · obtain ⟨j, hjop, hjf, hd⟩ := decode_of_op_le hop
    rw [hd] at h
    split at h
    · cases h
    · next hr =>
      cases h
      exact ⟨hjop, hjf, Bool.eq_false_iff.2 hr⟩
  · rw [decode_of_illop (by omega)] at h
    cases h

/-! ### The round trip between words and commands -/

/-- In an encoded word the only ground of RSVD is the key source of an ill-formed KSETUP (R86). -/
theorem rsvdBits_encode (i : Instr) : Machine.rsvdBits (encode i) = !i.wellFormed := by
  simp [Machine.rsvdBits, Instr.wellFormed_eq]

theorem encode_op_le (i : Instr) : ((encode i).extractLsb' 0 8).toNat ≤ 7 := by
  rw [encode_opBits]
  exact i.op_toNat_le

theorem decode_encode {i : Instr} (h : i.wellFormed = true) : decode (encode i) = .cmd i := by
  obtain ⟨j, hd⟩ := decode_of_legal (encode_op_le i) (by simp [rsvdBits_encode, h])
  obtain ⟨hop, hf, -⟩ := decode_cmd hd
  have hji : j = i := Instr.eq_of_op_of_fields (by simpa using hop) (by simpa using hf)
  rw [hd, hji]

/-- An opcode-table row of 32 bits is decoded as the word that it is (R81). -/
theorem decodeTableWord_toNat {w : Word} {i : Instr} (h : decode w = .cmd i) : decodeTableWord 32 w.toNat = some i := by
  rw [decodeTableWord, Nat.mod_eq_of_lt w.isLt, BitVec.ofNat_toNat, BitVec.setWidth_eq, h]

/-- Settles O16: the encoded word has the opcode and the fields of its command, and these determine the command. -/
theorem decodeOfEncode : Obligations.DecodeOfEncode := by
  intro i
  constructor
  · intro hw
    exact ⟨decode_encode hw, decodeTableWord_toNat (decode_encode hw)⟩
  · intro hw
    exact decode_of_rsvdBits (encode_op_le i) (by simp [rsvdBits_encode, hw])

/-- Settles O17: the encoded word agrees with the decoded one in each of the six fields. -/
theorem encodeOfDecode : Obligations.EncodeOfDecode := by
  intro w i h
  refine ⟨Machine.decode_wellFormed h, ?_⟩
  obtain ⟨hop, hf, hr⟩ := decode_cmd h
  obtain ⟨⟨hlow, hhigh⟩, -⟩ : (w.extractLsb' 11 5 = 0#5 ∧ w.extractLsb' 24 8 = 0#8) ∧ _ := by
    simpa [Machine.rsvdBits] using hr
  apply word_ext
  · simp [hop]
  · simp [hf, fieldsOf]
  · simp [hf, fieldsOf]
  · simp [hlow]
  · simp [hf, fieldsOf]
  · simp [hhigh]

/-! ### The decoding of every word -/

/-- The three grounds of RSVD, read off the word as a number (R86). -/
theorem rsvdBits_iff (w : Word) : Machine.rsvdBits w = true ↔
    (w.toNat / 2 ^ 11 % 32 ≠ 0 ∨ w.toNat / 2 ^ 24 % 256 ≠ 0) ∨ (w.toNat % 256 = 1 ∧ w.toNat / 2 ^ 9 % 4 = 3) := by
  simp [Machine.rsvdBits, ← BitVec.toNat_inj, Nat.shiftRight_eq_div_pow]

/-- Settles O12: the order of the checks of decoding, with each field read as a number. -/
theorem wordDecodes : Obligations.WordDecodes := by
  intro w
  have hopNat : (w.extractLsb' 0 8).toNat = w.toNat % 256 := by simp
  rw [← hopNat]
  split_ifs with hill hres hksetup
  · exact decode_of_illop hill
  · exact decode_of_rsvdBits (by omega) ((rsvdBits_iff w).2 (.inl hres))
  · exact decode_of_rsvdBits (by omega) ((rsvdBits_iff w).2 (.inr (hopNat ▸ hksetup)))
  · have hlegal : Machine.rsvdBits w = false := by
      rw [Bool.eq_false_iff, ne_eq, rsvdBits_iff, ← hopNat]
      exact not_or.2 ⟨hres, hksetup⟩
    obtain ⟨i, hd⟩ := decode_of_legal (by omega) hlegal
    obtain ⟨hop, hf, -⟩ := decode_cmd hd
    refine ⟨i, hd, congrArg BitVec.toNat hop, ?_, ?_, ?_⟩ <;> simp [hf, fieldsOf, Nat.shiftRight_eq_div_pow]

/-- A widened value has no bits above its own width. -/
theorem extractLsb'_setWidth_of_ge {n m : Nat} (x : BitVec n) {start : Nat} (h : n ≤ start) (len : Nat) :
    (x.setWidth m).extractLsb' start len = 0#len := by
  ext j hj
  simp [BitVec.getLsbD_of_ge x (start + j) (by omega)]

/-- Under the mask, a word is an opcode when its opcode field is it and no reserved field is set (R84). -/
theorem and_mask_eq_iff (w : Word) (op : Byte) : w &&& 0xFF00F8FF#32 = op.setWidth 32 ↔
    w.extractLsb' 0 8 = op ∧ w.extractLsb' 11 5 = 0#5 ∧ w.extractLsb' 24 8 = 0#8 := by
  have hop : (op.setWidth 32).extractLsb' 0 8 = op := by simp [BitVec.extractLsb'_setWidth_of_le]
  have hkeep8 (x : Byte) : x &&& 0xFF#8 = x := BitVec.and_allOnes
  have hkeep5 (x : BitVec 5) : x &&& 0x1F#5 = x := BitVec.and_allOnes
  constructor
  · intro h
    have hfield (start len : Nat) :
        w.extractLsb' start len &&& (0xFF00F8FF#32).extractLsb' start len = (op.setWidth 32).extractLsb' start len := by
      rw [← BitVec.extractLsb'_and, h]
    refine ⟨?_, ?_, ?_⟩
    · simpa [hkeep8, hop] using hfield 0 8
    · simpa [hkeep5, extractLsb'_setWidth_of_ge] using hfield 11 5
    · simpa [hkeep8, extractLsb'_setWidth_of_ge] using hfield 24 8
  · rintro ⟨h0, h1, h2⟩
    apply word_ext <;> simp [BitVec.extractLsb'_and, h0, h1, h2, hkeep8, hop, extractLsb'_setWidth_of_ge]

/-- A word fits the row of an opcode when the opcode is its own and it has no ground of RSVD (R84, R86). -/
theorem fits_row_iff (w : Word) (op : Byte) :
    (w &&& 0xFF00F8FF#32 = op.setWidth 32 ∧ (op = 1#8 → w.extractLsb' 9 2 ≠ 3#2)) ↔
      w.extractLsb' 0 8 = op ∧ Machine.rsvdBits w = false := by
  rw [and_mask_eq_iff, and_assoc, and_congr_right_iff]
  rintro rfl
  simp [Machine.rsvdBits, and_assoc]

/-- Settles O18: a word that fits a row decodes, and a word that decodes fits the row of its command. -/
theorem matchAndMask : Obligations.MatchAndMask := by
  intro w
  simp only [fits_row_iff]
  refine ⟨fun op hle => ⟨?_, ?_⟩, fun hnone => ?_⟩
  · rintro ⟨i, hd, rfl⟩
    obtain ⟨hop, -, hr⟩ := decode_cmd hd
    exact ⟨hop.symm, hr⟩
  · rintro ⟨rfl, hr⟩
    obtain ⟨i, hd⟩ := decode_of_legal hle hr
    exact ⟨i, hd, (decode_cmd hd).1⟩
  · by_cases hop : (w.extractLsb' 0 8).toNat ≤ 7
    · have hr : Machine.rsvdBits w = true := by simpa using hnone _ hop
      exact .inr (decode_of_rsvdBits hop hr)
    · exact .inl (decode_of_illop (by omega))

/-! ### The words of the format and of the assembler -/

/-- Settles O13: the codes by evaluation, and the six fields of the encoded word. -/
theorem encodedFieldsFollowFormat : Obligations.EncodedFieldsFollowFormat :=
  ⟨rfl, rfl, rfl, rfl, rfl, rfl, fun i => ⟨encode_opBits i, encode_bankBit i, encode_ksrcBits i, encode_lowReserved i,
    encode_immBits i, encode_highReserved i⟩⟩

/-- The encoded word as the assembler composes it: each field shifted to its place (R80, R89). -/
theorem encode_eq_or (i : Instr) : encode i = i.op.setWidth 32 ||| (i.fields.bank.bit.setWidth 32 <<< 8) |||
    (i.fields.ksrc.code.setWidth 32 <<< 9) ||| (i.fields.imm8.setWidth 32 <<< 16) := by
  apply BitVec.eq_of_getLsbD_eq
  grind [encode_getLsbD]

/-- Settles O14: the composed word of each command, where the fields that are 0 add nothing. -/
theorem assemblerSyntax : Obligations.AssemblerSyntax := by
  intro b k imm
  refine ⟨?_, fun _ => ?_, ?_, ?_, ?_, ?_, ?_, ?_⟩ <;>
    simp [encode_eq_or, Instr.op, Instr.fields, Machine.plainFields, KeySource.code, Bank.bit]

/-- Settles O15: the decoder evaluated on each of the ten words. -/
theorem specWordsDecode : Obligations.SpecWordsDecode := by
  unfold Obligations.SpecWordsDecode
  decide

end Sys2Proof

namespace Sys2Proof.Machine

/-! ### The acceptance of refused words and of ignored fields -/

/-- What a refusal leaves, in one record: ERR set, its code unless there was one, and the refusal in the history (R202). -/
theorem raiseError_eq (c : CmdError) (s : State) : raiseError c s =
    { s with err := true, ecode := if s.err then s.ecode else errorCode c, history := .refused c :: s.history } := by
  cases herr : s.err <;> simp [raiseError, herr]

/-- Settles O19: an idle block raises the error that the word decodes to. -/
theorem illegalWordsHaveNoEffect : Obligations.IllegalWordsHaveNoEffect := by
  intro w s hp
  refine ⟨fun hill => ?_, fun hop hr => ?_⟩
  · rw [accept_of_illegal hp (decode_of_illop hill), raiseError_eq]
    rfl
  · rw [accept_of_illegal hp (decode_of_rsvdBits hop hr), raiseError_eq]
    rfl

theorem needsKey_congr {i j : Instr} (h : i.op = j.op) : needsKey i = needsKey j := by
  rw [Bool.eq_iff_iff, needsKey_iff_op, needsKey_iff_op, h]

/-- The acceptance of a command looks at its opcode and, where it reads a bank, at the bank: the words of two commands
that agree there are refused with the same error or both latched. -/
theorem accept_alike {w x : Word} {i j : Instr} (s : State) (hw : decode w = .cmd i) (hx : decode x = .cmd j)
    (hop : i.op = j.op) (hbank : needsKey i = true → i.fields.bank = j.fields.bank) :
    accept w s = accept x s ∨ accept w s = latchCommand i s ∧ accept x s = latchCommand j s := by
  by_cases hb : busy s
  · left
    rw [accept_of_busy w hb, accept_of_busy x hb]
  · have hp : s.pend = none := by simpa [busy] using hb
    by_cases hk : needsKey i = true ∧ bankValid s i.fields.bank = false
    · obtain ⟨hn, hv⟩ := hk
      left
      rw [accept_of_unkeyed hp hw hn hv, accept_of_unkeyed hp hx (needsKey_congr hop ▸ hn) (hbank hn ▸ hv)]
    · have hvi : needsKey i = true → bankValid s i.fields.bank = true := by simpa using hk
      have hvj : needsKey j = true → bankValid s j.fields.bank = true := by
        rw [← needsKey_congr hop]
        exact fun hn => hbank hn ▸ hvi hn
      exact .inr ⟨accept_of_keyed hp hw hvi, accept_of_keyed hp hx hvj⟩

/-- Settles O20: the words are accepted alike, and a completion reads of its fields only the bank, the key source of
KSETUP and the byte of FOLDB. -/
theorem ignoredFieldsHaveNoEffect : Obligations.IgnoredFieldsHaveNoEffect := by
  refine ⟨fun w x i j s hw hx hop hbank => ?_, fun f g s => ⟨rfl, rfl, ?_, ?_, ?_⟩⟩
  · obtain h | ⟨hi, hj⟩ := accept_alike s hw hx hop (fun hn => hbank ((needsKey_iff_op i).1 hn))
    · simp [h]
    · simp [hi, hj]
  · intro himm
    simp only [exec, execFoldb, himm]
  · intro hb
    simp only [exec, execEnc, execDec, execEncfold, execLicasm, hb, and_self]
  · intro hb hk
    simp only [exec, execKsetup, hb, hk]

end Sys2Proof.Machine
end

section
/-!
PROOFS. Control (40_control.md): what every completion leaves as it was, the acceptance of the opcodes of the map, and
NOP.
-/

namespace Sys2Proof.Machine

/-! ### Every completion (R100) -/

/-- The frame of a completion: the operands of the host, the errors and the model's own fields stay, PEND becomes none,
and only KV, RK, DOUT, CKSUM, INVAL and VV are the command's to change. -/
theorem exec_frame {i : Instr} {s t : State} (h : exec i s = .next t) :
    t = { s with pend := none, kv0 := t.kv0, kv1 := t.kv1, rk0 := t.rk0, rk1 := t.rk1, doutLo := t.doutLo,
                 doutHi := t.doutHi, cksum := t.cksum, invalLo := t.invalLo, invalHi := t.invalHi, vv := t.vv } := by
  obtain ⟨herr, hecode, hhistory, hinputs, hdraws, hcountdown⟩ := exec_keeps h
  have hpend : t.pend = none := exec_pend h
  obtain ⟨hkeyLo, hkeyHi, hdinLo, hdinHi, hsuffix⟩ := HostOperands.mk.inj (exec_operandsOf h)
  rw [← herr, ← hecode, ← hhistory, ← hinputs, ← hdraws, ← hcountdown, ← hpend, ← hkeyLo, ← hkeyHi, ← hdinLo, ← hdinHi,
    ← hsuffix]

/-- Settles O29: a completion answers and clears PEND, which is BUSY, and its frame is the rest. -/
theorem completionRetires : Obligations.CompletionRetires := by
  intro s p _
  obtain ⟨t, h⟩ := exec_answers p.cmd s
  have hidle : (statusWord t).getLsbD 0 = false := by rw [statusWord_busy, exec_pend h, Option.isSome_none]
  exact ⟨t, h, exec_pend h, hidle, exec_frame h⟩

/-! ### The acceptance of an opcode of the map (R200, R201) -/

/-- KV of the bank that a word selects is that of the bank of its command (R82). -/
theorem keyBit_eq_bankValid (w : Word) (s : State) : keyBit w s = bankValid s (fieldsOf w).bank := by
  rw [keyBit, fieldsOf, BitVec.getLsbD_eq_extractLsb']
  obtain hb | hb := BitVec.eq_zero_or_eq_one (w.extractLsb' 8 1) <;> rw [hb] <;> rfl

/-- The errors that a command's opcode can raise at acceptance, in their order: NOKEY is among them only where the
command reads a bank. -/
theorem acceptanceErrors_op (i : Instr) : AcceptanceErrors i.op (needsKey i) := by
  intro w s hw
  have hle : (w.extractLsb' 0 8).toNat ≤ 7 := hw ▸ i.op_toNat_le
  split
  · next hbusy => exact accept_of_busy w hbusy
  next hbusy =>
  have hidle : s.pend = none := by simpa using hbusy
  split
  · next hrsvd => exact accept_of_illegal hidle (decode_of_rsvdBits hle hrsvd)
  next hrsvd =>
  obtain ⟨j, hd⟩ := decode_of_legal hle (by simpa using hrsvd)
  obtain ⟨hjop, hjf, -⟩ := decode_cmd hd
  have hji : j.op = i.op := hjop.trans hw
  rw [← needsKey_congr hji, keyBit_eq_bankValid, ← hjf]
  split
  · next hkey =>
    obtain ⟨hn, hv⟩ : needsKey j = true ∧ bankValid s j.fields.bank = false := by simpa using hkey
    exact accept_of_unkeyed hidle hd hn hv
  · next hkey =>
    obtain ⟨-, hencode⟩ := encodeOfDecode w j hd
    rw [accept_of_keyed hidle hd (by simpa using hkey)]
    exact ⟨j, hencode, hji, accepted_latchCommand j s⟩

/-! ### NOP (R101) -/

/-- Settles O30: NOP's completion is only the clearing of PEND, and its opcode reads no bank, so NOKEY is none of its
errors. -/
theorem nopChangesNothing : Obligations.NopChangesNothing :=
  ⟨by decide, fun _ _ _ _ => rfl, acceptanceErrors_op (.nop (plainFields .bank0))⟩

end Sys2Proof.Machine
end

section
/-!
PROOFS. The key schedule (41_key_schedule.md): the initial words, the mixing pass, and KSETUP.
-/

namespace Sys2Proof.Machine

/-! ### The initial words (R112) -/

theorem initialWord_eq (t : Nat) : initialWord t = firstKeyWord + BitVec.ofNat 32 t * keyIncrement := by
  induction t with
  | zero => simp [initialWord]
  | succ t ih => rw [initialWord, ih, BitVec.ofNat_add, BitVec.add_mul, BitVec.one_mul, BitVec.add_assoc]

theorem initialWords_getElem (t : Fin 26) : initialWords[t] = initialWord t.val := by
  simp [initialWords]

/-- Settles O38: the closed form by induction, and the recurrence of `initialWord` for a word's neighbour. -/
theorem initialRoundKeyWords : Obligations.InitialRoundKeyWords := by
  intro t
  refine ⟨?closed, ?first, ?next⟩
  case closed => exact (initialWords_getElem t).trans (initialWord_eq t.val)
  case first =>
    intro ht
    rw [initialWords_getElem, ht]
    rfl
  case next =>
    intro u hu
    rw [initialWords_getElem, initialWords_getElem, hu]
    rfl

/-! ### The mixing pass (R113, R114) -/

/-- `S[k]` and `L[k]` by a number `k`, as the rules index them (R111, R113). No rule uses an index past the end. -/
def wordAt {n : Nat} (v : Vector Word n) (k : Nat) : Word := v[k]?.getD 0

theorem wordAt_val {n : Nat} (v : Vector Word n) (i : Fin n) : wordAt v i.val = v[i] := by
  simp [wordAt]

theorem wordAt_set {n : Nat} (v : Vector Word n) (i : Fin n) (x : Word) (k : Nat) :
    wordAt (v.set i x) k = if k = i.val then x else wordAt v k := by
  simp only [wordAt, Vector.getElem?_set, eq_comm (a := i.val)]
  split <;> rfl

theorem mixStep_a (m : Mix) : (mixStep m).a = rotl32 (wordAt m.s m.i.val + m.a + m.b) 3 := by
  rw [wordAt_val]
  rfl

/-- The new `b` uses the new `a` (R113). -/
theorem mixStep_b (m : Mix) :
    (mixStep m).b = rotl32 (wordAt m.l m.j.val + (mixStep m).a + m.b) ((mixStep m).a + m.b) := by
  rw [wordAt_val]
  rfl

theorem wordAt_mixStep_s (m : Mix) (k : Nat) :
    wordAt (mixStep m).s k = if k = m.i.val then (mixStep m).a else wordAt m.s k := wordAt_set ..

theorem wordAt_mixStep_l (m : Mix) (k : Nat) :
    wordAt (mixStep m).l k = if k = m.j.val then (mixStep m).b else wordAt m.l k := wordAt_set ..

/-- The pass adds its iterations in front; seen from its end, the last iteration comes after the others. -/
theorem mixPass_succ (n : Nat) (m : Mix) : mixPass (n + 1) m = mixStep (mixPass n m) := by
  induction n generalizing m with
  | zero => rfl
  | succ n ih => exact ih (mixStep m)

/-- The indices count the iterations modulo 26 and modulo 2 (R113). -/
theorem mixPass_indices (k : Block) (n : Nat) :
    (mixPass n (mixStart k)).i.val = n % 26 ∧ (mixPass n (mixStart k)).j.val = n % 2 := by
  induction n with
  | zero => exact ⟨rfl, rfl⟩
  | succ n ih =>
    obtain ⟨hi, hj⟩ := ih
    rw [mixPass_succ]
    constructor
    · simp [mixStep, Fin.val_add, hi]
    · simp [mixStep, Fin.val_add, hj]

/-- The mixing recurrence between the values after `n` and after `n + 1` iterations (R113). -/
theorem mixPass_recurrence (k : Block) (n : Nat) :
    let m := mixPass n (mixStart k)
    let m' := mixPass (n + 1) (mixStart k)
    m'.a = rotl32 (wordAt m.s (n % 26) + m.a + m.b) 3 ∧
    m'.b = rotl32 (wordAt m.l (n % 2) + m'.a + m.b) (m'.a + m.b) ∧
    (∀ i, wordAt m'.s i = if i = n % 26 then m'.a else wordAt m.s i) ∧
    ∀ j, wordAt m'.l j = if j = n % 2 then m'.b else wordAt m.l j := by
  obtain ⟨hi, hj⟩ := mixPass_indices k n
  rw [mixPass_succ, ← hi, ← hj]
  exact ⟨mixStep_a _, mixStep_b _, wordAt_mixStep_s _, wordAt_mixStep_l _⟩

/-- Among the numbers below `r * q`, each residue modulo `r` comes `q` times. -/
theorem length_filter_mod_eq {r : Nat} (q v : Nat) (hv : v < r) :
    ((List.range (r * q)).filter fun n => n % r = v).length = q := by
  have hr : 0 < r := Nat.zero_lt_of_lt hv
  have hcount : Nat.count (· ≡ v [MOD r]) (r * q) = q := by
    rw [Nat.count_modEq_card (r * q) hr v, Nat.mul_mod_right, if_neg (Nat.not_lt_zero _), Nat.mul_div_cancel_left _ hr,
      add_zero]
  simpa [Nat.count, List.countP_eq_length_filter, Nat.ModEq, Nat.mod_eq_of_lt hv] using hcount

/-- Settles O39: the sequences are the working values after each number of iterations. -/
theorem mixingPassGivesTheSchedule : Obligations.MixingPassGivesTheSchedule := by
  refine ⟨fun k => ?_, fun i => length_filter_mod_eq 3 i, fun j => length_filter_mod_eq 39 j⟩
  refine ⟨fun n => wordAt (mixPass n (mixStart k)).s, fun n => wordAt (mixPass n (mixStart k)).l,
    fun n => (mixPass n (mixStart k)).a, fun n => (mixPass n (mixStart k)).b,
    wordAt_val initialWords, rfl, rfl, rfl, rfl, fun n _ => ?_, fun i => (wordAt_val _ i).symm⟩
  obtain ⟨ha, hb, hs, hl⟩ := mixPass_recurrence k n
  exact ⟨ha, hb, fun i _ => hs i, fun j _ => hl j⟩

/-! ### KSETUP (R110, R115) -/

/-- The key of a key source that KSETUP takes: the latched KEY, NAME_KEY or LICENSE_KEY (R82, R110). -/
theorem masterKey_eq {k : KeySource} (hk : k ≠ .reserved) (ops : Latched) :
    masterKey k ops =
      if k = .key then ops.key else if k = .name then 0x7A21C951691CD470#64 else 0xB4F0E0CCEC0EAFAD#64 := by
  cases k with
  | key | name => rfl
  | license => exact (by decide : licenseKey = 0xB4F0E0CCEC0EAFAD#64)
  | reserved => exact absurd rfl hk

/-- With a command latched, the key of KSETUP's completion is taken from the latch (R100, R110). -/
theorem exec_ksetup_of_pend {s : State} {p : Pending} (hp : s.pend = some p) (f : Fields) :
    exec (.ksetup f) s =
      .next (retire (setBankValid f.bank (setBankKeys f.bank (keySchedule (masterKey f.ksrc p.ops)) s))) := by
  rw [← latchedOperands_of_pend hp]
  rfl

/-- The bank that KSETUP names holds the schedule of its key (R110). -/
theorem bankKeys_of_exec_ksetup {f : Fields} {s t : State} {p : Pending} (hp : s.pend = some p)
    (h : exec (.ksetup f) s = .next t) : bankKeys t f.bank = keySchedule (masterKey f.ksrc p.ops) := by
  rw [exec_ksetup_of_pend hp] at h
  cases h
  exact (bankKeys_setBankValid ..).trans (bankKeys_setBankKeys_same ..)

/-- Settles O31: KSETUP's completion writes the schedule of `masterKey` and KV for each of the two banks, and its opcode
reads no bank, so NOKEY is none of its errors. -/
theorem ksetupFillsTheBank : Obligations.KsetupFillsTheBank := by
  refine ⟨?word, ?completion, acceptanceErrors_op (.ksetup (plainFields .bank0))⟩
  case word =>
    intro b k _
    simp [encode_eq_or, Instr.op, Instr.fields]
  case completion =>
    intro imm k s p hp hk key
    have hkey : masterKey k p.ops = key := masterKey_eq hk p.ops
    rw [exec_ksetup_of_pend hp, exec_ksetup_of_pend hp, hkey]
    -- The schedule is any value here: the two records are not to be compared by evaluating it.
    generalize keySchedule key = ks
    exact ⟨rfl, rfl⟩

/-- Settles O40: each bank holds the schedule of its KSETUP's key, and the keys are equal. -/
theorem keyScheduleDeterminism : Obligations.KeyScheduleDeterminism := by
  intro f g s t p q hp hq hkey
  obtain ⟨s', hs⟩ := exec_answers (.ksetup f) s
  obtain ⟨t', ht⟩ := exec_answers (.ksetup g) t
  have hf : bankKeys s' f.bank = keySchedule (masterKey f.ksrc p.ops) := bankKeys_of_exec_ksetup hp hs
  have hg : bankKeys t' g.bank = keySchedule (masterKey g.ksrc q.ops) := bankKeys_of_exec_ksetup hq ht
  have hbanks : bankKeys s' f.bank = bankKeys t' g.bank := by rw [hf, hg, hkey]
  exact ⟨s', t', hs, ht, hbanks, hf, fun x => by rw [hbanks]; exact ⟨rfl, rfl⟩⟩

end Sys2Proof.Machine
end

section
/-!
PROOFS. The block cipher (42_block_cipher.md): the rounds of encryption and decryption as the rules write them, that the
two are inverses, ENC and DEC.
-/

namespace Sys2Proof.Machine

/-! ### The rounds (R132, R133) -/

theorem keyWord_of_lt (ks : RoundKeys) {k : Nat} (hk : k < 26) : keyWord ks k = ks[k] := by
  simp [keyWord, hk]

theorem encRound_a (ks : RoundKeys) (r : Nat) (h : Halves) :
    (encRound ks r h).a = rotl32 (h.a ^^^ h.b) h.b + keyWord ks (2 * r) := rfl

/-- The second half of an encryption round uses the new `a` (R132). -/
theorem encRound_b (ks : RoundKeys) (r : Nat) (h : Halves) :
    (encRound ks r h).b =
      rotl32 (h.b ^^^ (encRound ks r h).a) (encRound ks r h).a + keyWord ks (2 * r + 1) := rfl

theorem decRound_b (ks : RoundKeys) (r : Nat) (h : Halves) :
    (decRound ks r h).b = rotr32 (h.b - keyWord ks (2 * r + 1)) h.a ^^^ h.a := rfl

/-- The second half of a decryption round uses the new `b` (R133). -/
theorem decRound_a (ks : RoundKeys) (r : Nat) (h : Halves) :
    (decRound ks r h).a = rotr32 (h.a - keyWord ks (2 * r)) (decRound ks r h).b ^^^ (decRound ks r h).b := rfl

/-- Settles O42: the sequences are the half-words after each number of rounds. -/
theorem encryptFollowsRounds : Obligations.EncryptFollowsRounds := by
  intro S x
  let start : Halves := { a := lowWord x + keyWord S 0, b := highWord x + keyWord S 1 }
  refine ⟨fun n => (encRounds S n start).a, fun n => (encRounds S n start).b, ?lowHalf, ?highHalf, ?rounds, rfl⟩
  case lowHalf => exact congrArg (lowWord x + ·) (keyWord_of_lt S (by decide))
  case highHalf => exact congrArg (highWord x + ·) (keyWord_of_lt S (by decide))
  case rounds =>
    intro r
    rw [← keyWord_of_lt, ← keyWord_of_lt]
    exact ⟨encRound_a .., encRound_b ..⟩

/-- The half-words of a run of `decRounds`, numbered by the round still to undo (R133). -/
def decTrace (ks : RoundKeys) : Nat → Halves → Nat → Halves
  | 0, h, _ => h
  | n + 1, h, r => if r = n + 1 then h else decTrace ks n (decRound ks (n + 1) h) r

theorem decTrace_start (ks : RoundKeys) (n : Nat) (h : Halves) : decTrace ks n h n = h := by
  cases n <;> simp [decTrace]

theorem decTrace_end (ks : RoundKeys) (n : Nat) (h : Halves) : decTrace ks n h 0 = decRounds ks n h := by
  induction n generalizing h with
  | zero => rfl
  | succ n ih => simp [decTrace, decRounds, ih]

theorem decTrace_round (ks : RoundKeys) {n r : Nat} (h : Halves) (hr : r < n) :
    decTrace ks n h r = decRound ks (r + 1) (decTrace ks n h (r + 1)) := by
  induction n generalizing h with
  | zero => omega
  | succ n ih =>
    have hne : r ≠ n + 1 := by omega
    by_cases hlast : r = n
    · subst hlast
      simp [decTrace, decTrace_start]
    · have hlt : r < n := by omega
      simp [decTrace, hne, hlast, ih _ hlt]

/-- Settles O43: the sequences are the trace of the twelve rounds, and the subtraction follows its end. -/
theorem decryptFollowsRounds : Obligations.DecryptFollowsRounds := by
  intro S x
  let trace := decTrace S 12 { a := lowWord x, b := highWord x }
  have hstart : trace 12 = { a := lowWord x, b := highWord x } := decTrace_start ..
  refine ⟨fun n => (trace n).a, fun n => (trace n).b, congrArg Halves.a hstart, congrArg Halves.b hstart, ?rounds,
    ?last⟩
  case rounds =>
    intro r
    have hround : trace r.val = decRound S (r.val + 1) (trace (r.val + 1)) := decTrace_round S _ r.isLt
    simp only [← keyWord_of_lt, hround]
    exact ⟨decRound_b .., decRound_a ..⟩
  case last =>
    have hend : trace 0 = decRounds S 12 { a := lowWord x, b := highWord x } := decTrace_end ..
    simp only [← keyWord_of_lt, hend]
    rfl

/-! ### Encryption and decryption are inverses (R134) -/

/-- Each half of the encryption round adds back what the decryption round has subtracted, rotates it back by the same
amount and cancels the same exclusive or. -/
theorem encRound_decRound (ks : RoundKeys) (r : Nat) (h : Halves) : encRound ks r (decRound ks r h) = h := by
  simp [encRound, decRound, rotl32_rotr32]

theorem encRounds_decRounds (ks : RoundKeys) (n : Nat) (h : Halves) : encRounds ks n (decRounds ks n h) = h := by
  induction n generalizing h with
  | zero => rfl
  | succ n ih => rw [decRounds, encRounds, ih, encRound_decRound]

theorem encrypt_decrypt (ks : RoundKeys) (x : Block) : encrypt ks (decrypt ks x) = x := by
  cases hundone : decRounds ks 12 { a := lowWord x, b := highWord x } with
  | mk a b =>
    have hredone : encRounds ks 12 { a := a, b := b } = { a := lowWord x, b := highWord x } :=
      hundone ▸ encRounds_decRounds ..
    simp [encrypt, decrypt, hundone, hredone]

/-- Encryption is onto, since it undoes decryption, and a map of the finite set of blocks onto itself is one-to-one. -/
theorem encrypt_bijective (ks : RoundKeys) : Function.Bijective (encrypt ks) :=
  Function.Surjective.bijective_of_finite fun x => ⟨decrypt ks x, encrypt_decrypt ks x⟩

theorem decrypt_encrypt (ks : RoundKeys) (x : Block) : decrypt ks (encrypt ks x) = x :=
  (encrypt_bijective ks).injective (encrypt_decrypt ks (encrypt ks x))

/-- Settles O44: encryption undoes decryption round by round, and the rest follows from the finiteness of the blocks. -/
theorem cipherInverse : Obligations.CipherInverse := fun S =>
  ⟨decrypt_encrypt S, encrypt_decrypt S, encrypt_bijective S⟩

/-! ### ENC and DEC (R130, R131) -/

theorem bankKeys_eq_ite (s : State) (b : Bank) : bankKeys s b = if b = .bank0 then s.rk0 else s.rk1 := by
  cases b <;> rfl

/-- With a command latched, ENC's completion encrypts the latched DIN (R100, R130). -/
theorem exec_enc_of_pend {s : State} {p : Pending} (hp : s.pend = some p) (f : Fields) :
    exec (.enc f) s = .next (retire (writeDout (encrypt (bankKeys s f.bank) p.ops.din) s)) := by
  rw [← latchedOperands_of_pend hp]
  rfl

/-- With a command latched, DEC's completion decrypts the latched DIN (R100, R131). -/
theorem exec_dec_of_pend {s : State} {p : Pending} (hp : s.pend = some p) (f : Fields) :
    exec (.dec f) s = .next (retire (writeDout (decrypt (bankKeys s f.bank) p.ops.din) s)) := by
  rw [← latchedOperands_of_pend hp]
  rfl

/-- The state of a completion that only writes DOUT, with the block's halves as slices (R8, R100). -/
theorem retire_writeDout (y : Block) (s : State) :
    retire (writeDout y s) =
      { s with doutHi := y.extractLsb' 32 32, doutLo := y.extractLsb' 0 32, pend := none } := rfl

/-- Settles O32: ENC's completion is the writing of DOUT and the clearing of PEND, and its opcode reads a bank, so NOKEY
is among its errors. -/
theorem encWritesDout : Obligations.EncWritesDout := by
  refine ⟨?word, ?completion, acceptanceErrors_op (.enc (plainFields .bank0))⟩
  case word =>
    intro b
    obtain ⟨-, -, henc, -⟩ := assemblerSyntax b .key 0
    exact henc
  case completion =>
    intro f s p hp
    rw [exec_enc_of_pend hp, retire_writeDout, bankKeys_eq_ite]

/-- Settles O33: DEC's completion is the writing of DOUT and the clearing of PEND, decryption undoes encryption, and the
opcode reads a bank, so NOKEY is among its errors. -/
theorem decWritesDout : Obligations.DecWritesDout := by
  refine ⟨?word, ?completion, decrypt_encrypt, acceptanceErrors_op (.dec (plainFields .bank0))⟩
  case word =>
    intro b
    obtain ⟨-, -, -, hdec, -⟩ := assemblerSyntax b .key 0
    exact hdec
  case completion =>
    intro f s p hp
    rw [exec_dec_of_pend hp, retire_writeDout, bankKeys_eq_ite]

end Sys2Proof.Machine
end

section
/-!
PROOFS. The checksum accumulator (43_checksum.md): the fold as the rule writes it, the words that a fold of 0 leaves as
they are, CKCLR, FOLDB and ENCFOLD.
-/

namespace Sys2Proof.Machine

/-! ### The fold (R150) -/

/-- The model's sign extension is the library's: the copies of the sign bit stand above the byte (R10). -/
theorem sext32_eq_signExtend (v : Byte) : sext32 v = v.signExtend 32 := by
  have hsign : v.msb = false ↔ v < 0x80#8 := by
    rw [BitVec.msb_eq_false_iff_two_mul_lt]
    bv_omega
  rw [BitVec.signExtend_eq_append_of_le (by decide), sext32]
  split
  case isTrue hpos => simp [hsign.mpr hpos]
  case isFalse hneg =>
    have hmsb : v.msb = true := by simpa using mt hsign.mp hneg
    simp only [hmsb, if_true]
    rfl

/-- Settles O46: the library extends a byte by the pattern of its signed value, which is 256 less from 128 on. -/
theorem foldSignExtends : Obligations.FoldSignExtends := by
  intro n v
  have hsigned : v.toInt = if v.toNat < 128 then (v.toNat : Int) else (v.toNat : Int) - 256 := by
    rw [BitVec.toInt_eq_toNat_cond]
    split <;> split <;> omega
  rw [fold, sext32_eq_signExtend, BitVec.signExtend, hsigned]

/-- The bits of a word as a circle: bit 32 is bit 0 again. -/
def cyclicBit (x : Word) (i : Nat) : Bool := x.getLsbD (i % 32)

theorem cyclicBit_periodic (x : Word) : Function.Periodic (cyclicBit x) 32 := fun i =>
  congrArg x.getLsbD (Nat.add_mod_right i 32)

/-- A rotation carries every bit along the circle. -/
theorem cyclicBit_rotateLeft (x : Word) (i : Nat) : cyclicBit (x.rotateLeft 3) (i + 3) = cyclicBit x i := by
  unfold cyclicBit
  rw [BitVec.getLsbD_rotateLeft_of_le (by decide)]
  by_cases hwrap : (i + 3) % 32 < 3
  · have hbit : 32 - 3 + (i + 3) % 32 = i % 32 := by omega
    simp [hwrap, hbit]
  · have hbit : (i + 3) % 32 - 3 = i % 32 := by omega
    have hlt : (i + 3) % 32 < 32 := by omega
    simp [hwrap, hbit, hlt]

/-- Eleven steps of 3 go once around the circle and 1 further, so a word that a rotation by 3 leaves as it is has all
its bits equal. -/
theorem cyclicBit_eq_of_rotateLeft_eq {x : Word} (h : x.rotateLeft 3 = x) (i : Nat) :
    cyclicBit x i = cyclicBit x 0 := by
  have hthree : Function.Periodic (cyclicBit x) 3 := fun i => by rw [← cyclicBit_rotateLeft x i, h]
  have hone : Function.Periodic (cyclicBit x) 1 := fun i =>
    calc cyclicBit x (i + 1) = cyclicBit x (i + 1 + 32) := (cyclicBit_periodic x _).symm
      _ = cyclicBit x i := hthree.nat_mul 11 i
  rw [← hone.map_mod_nat i, Nat.mod_one]

/-- The fixed points of the rotation by 3 (R152). -/
theorem rotateLeft_three_eq_self_iff (x : Word) : x.rotateLeft 3 = x ↔ x = 0 ∨ x = 0xFFFFFFFF#32 := by
  constructor
  · intro h
    have hbits : ∀ j < 32, x.getLsbD j = cyclicBit x 0 := fun j hj => by
      rw [← cyclicBit_eq_of_rotateLeft_eq h j, cyclicBit, Nat.mod_eq_of_lt hj]
    cases hbit : cyclicBit x 0 with
    | false => exact .inl (BitVec.eq_of_getLsbD_eq fun j hj => (hbits j hj).trans (by simp [hbit]))
    | true =>
      have hones : x = BitVec.allOnes 32 := BitVec.eq_of_getLsbD_eq fun j hj => by
        rw [hbits j hj, hbit, BitVec.getLsbD_allOnes, decide_eq_true hj]
      exact .inr hones
  · rintro (rfl | rfl) <;> decide

/-- A byte of 0 has nothing to XOR in, so its fold is the rotation (R152). -/
theorem fold_zero (n : Word) : fold n 0 = n.rotateLeft 3 := by
  have hsext : sext32 0 = 0 := by decide
  rw [fold, hsext, rotl32_eq_rotateLeft]
  exact congrArg (·.rotateLeft 3) BitVec.xor_zero

/-- Folding a stream and then another is folding their concatenation (R153). -/
theorem foldBytes_append (n : Word) (u v : List Byte) : foldBytes n (u ++ v) = foldBytes (foldBytes n u) v :=
  List.foldl_append

/-! ### CKCLR (R151) -/

/-- With nothing pending, a host write of CKSUM is not refused (R57, R205). -/
theorem hostWrite_cksum_of_idle {s : State} (hp : s.pend = none) (v : Word) :
    hostWrite 0x028#12 4 v s = .next (writeCksum v s) := by
  have hreg : regAt 0x028#12 = .cksum := by decide
  rw [hostWrite_at (by decide), hreg]
  simp [writeReg, hostWriteCksum, busy, hp]

/-- Settles O34: CKCLR's completion is the writing of 0 to CKSUM and the clearing of PEND, and its opcode reads no bank,
so NOKEY is none of its errors. -/
theorem ckclrClearsCksum : Obligations.CkclrClearsCksum := by
  refine ⟨?word, ?completion, acceptanceErrors_op (.ckclr (plainFields .bank0))⟩
  case word =>
    obtain ⟨-, -, -, -, hckclr, -⟩ := assemblerSyntax .bank0 .key 0
    exact hckclr
  case completion =>
    intro f s p _
    rw [hostWrite_cksum_of_idle rfl]
    exact ⟨rfl, rfl⟩

/-! ### FOLDB (R152) -/

/-- Settles O35: FOLDB's completion is the writing of CKSUM and the clearing of PEND, a fold of 0 is a rotation by 3,
and the opcode reads no bank, so NOKEY is none of its errors. -/
theorem foldbFoldsOneByte : Obligations.FoldbFoldsOneByte := by
  refine ⟨?word, fun _ _ _ _ => rfl, ?zeroByte, acceptanceErrors_op (.foldb (plainFields .bank0))⟩
  case word =>
    intro imm
    obtain ⟨-, -, -, -, -, hfoldb, -⟩ := assemblerSyntax .bank0 .key imm
    exact hfoldb
  case zeroByte =>
    intro n
    rw [fold_zero]
    exact ⟨rfl, rotateLeft_three_eq_self_iff n⟩

/-! ### ENCFOLD (R153) -/

/-- With a command latched, ENCFOLD's completion encrypts the latched DIN and folds the ciphertext (R100, R153). -/
theorem exec_encfold_of_pend {s : State} {p : Pending} (hp : s.pend = some p) (f : Fields) :
    let y := encrypt (bankKeys s f.bank) p.ops.din
    exec (.encfold f) s = .next (retire (writeCksum (foldBytes s.cksum (bytesOf y)) (writeDout y s))) := by
  rw [← latchedOperands_of_pend hp]
  rfl

/-- The bytes of a block as slices, most significant first (R13). -/
theorem bytesOf_eq_slices (y : Block) :
    bytesOf y = [y.extractLsb' 56 8, y.extractLsb' 48 8, y.extractLsb' 40 8, y.extractLsb' 32 8, y.extractLsb' 24 8,
      y.extractLsb' 16 8, y.extractLsb' 8 8, y.extractLsb' 0 8] := rfl

/-- Settles O36: ENCFOLD's completion is the writing of DOUT, the folding of the ciphertext's bytes and the clearing of
PEND, and its opcode reads a bank, so NOKEY is among its errors. -/
theorem encfoldFoldsTheCiphertext : Obligations.EncfoldFoldsTheCiphertext := by
  refine ⟨?word, ?completion, foldBytes_append, acceptanceErrors_op (.encfold (plainFields .bank0))⟩
  case word =>
    intro b
    obtain ⟨-, -, -, -, -, -, hencfold, -⟩ := assemblerSyntax b .key 0
    exact hencfold
  case completion =>
    intro f s p hp
    rw [exec_encfold_of_pend hp, bytesOf_eq_slices, bankKeys_eq_ite]
    rfl

end Sys2Proof.Machine
end

section
/-!
PROOFS. The license assembler (44_license.md, R170 to R174): the candidate's low word, the absolute value of a byte, the
fold of the candidate, and LICASM.
-/

namespace Sys2Proof.Machine

/-! ### The candidate (R171, R172) -/

/-- The high half of a word is its number without the low 16 bits (R171). -/
theorem extractLsb'_high_toNat (s : Word) : (s.extractLsb' 16 16).toNat = s.toNat / 2 ^ 16 := by
  rw [BitVec.extractLsb'_toNat, Nat.shiftRight_eq_div_pow]
  omega

/-- The sentinels as numbers (R171). -/
theorem mem_sentinels_iff (h : BitVec 16) :
    h ∈ sentinels ↔ h.toNat = 0x0401 ∨ h.toNat = 0x0402 ∨ h.toNat = 0x0403 := by
  simp [sentinels, ← BitVec.toNat_inj]

/-- Below the forced top byte 0x01 there are 24 free bits, so putting the byte over them is adding it (R171). -/
theorem forcedTopByte_toNat (x : BitVec 24) : (0x01000000#32 ||| (0#8 ++ x)).toNat = 0x01000000 + x.toNat := by
  have hbelow : (0#8 ++ x).toNat = x.toNat := by
    rw [BitVec.toNat_append, BitVec.toNat_ofNat, Nat.zero_mod, Nat.zero_shiftLeft, Nat.zero_or]
  rw [BitVec.toNat_or, hbelow]
  exact (Nat.two_pow_add_eq_or_of_lt x.isLt 1).symm

/-- Settles O47: the sentinels are three numbers of the high half, and any other suffix has its low 24 bits under the
forced byte. -/
theorem candidateLowWord : Obligations.CandidateLowWord := by
  intro s
  rw [← extractLsb'_high_toNat]
  simp only [← mem_sentinels_iff]
  unfold candidateLow
  split
  case isTrue => rfl
  case isFalse => rw [forcedTopByte_toNat, BitVec.extractLsb'_toNat, Nat.shiftRight_zero]

/-! ### The absolute value of a byte (R173) -/

/-- The absolute value is that of the signed reading, which is 256 less from 0x80 on (R173). -/
theorem abs8_toNat (x : Byte) : (abs8 x).toNat = x.toInt.natAbs := by
  rw [BitVec.toInt_eq_toNat_cond]
  unfold abs8
  split
  case isTrue hpos =>
    rw [if_pos (by bv_omega), Int.natAbs_natCast]
  case isFalse hneg =>
    rw [if_neg (by bv_omega)]
    bv_omega

/-- Settles O48: the number is the absolute value, and its bound holds of every byte. -/
theorem absoluteValueOfByte : Obligations.AbsoluteValueOfByte := fun x => ⟨abs8_toNat x, abs8_toNat_le x⟩

/-! ### The fold of the candidate (R174) -/

/-- A sign extension leaves the byte itself in bits 7:0 (R10, R174). -/
theorem sext32_low (v : Byte) : (sext32 v).extractLsb' 0 8 = v := by
  unfold sext32
  split
  case isTrue => exact BitVec.extractLsb'_append_eq_right
  case isFalse => exact BitVec.extractLsb'_append_eq_right

/-- The low byte of an XOR of sign-extended bytes is the XOR of the bytes (R174). -/
theorem foldl_xor_sext32_low (n : Word) (l : List Byte) :
    ((l.map sext32).foldl (· ^^^ ·) n).extractLsb' 0 8 = l.foldl (· ^^^ ·) (n.extractLsb' 0 8) := by
  rw [List.foldl_map]
  refine (List.foldl_hom (BitVec.extractLsb' 0 8) fun m v => ?_).symm
  rw [BitVec.extractLsb'_xor, sext32_low]

/-- Settles O49: the eight slices, the exchange of any two bytes in an XOR, and the low byte of the signed fold. -/
theorem xorFoldOfCandidate : Obligations.XorFoldOfCandidate := by
  intro iv
  refine ⟨?slices, fun l hl => hl.foldl_eq 0, foldl_xor_sext32_low 0 (bytesOf iv)⟩
  case slices =>
    rw [xorFold8, bytesOf_eq_slices]
    simp

/-! ### LICASM (R170) -/

/-- With a command latched, LICASM's completion assembles the candidate from CKSUM and the latched SUFFIX (R100,
R170). -/
theorem exec_licasm_of_pend {s : State} {p : Pending} (hp : s.pend = some p) (f : Fields) :
    let iv := candidate s.cksum p.ops.suffix
    exec (.licasm f) s =
      .next (retire (writeVv (abs8 (xorFold8 iv)) (writeDout (decrypt (bankKeys s f.bank) iv) (writeInval iv s)))) := by
  rw [← latchedOperands_of_pend hp]
  rfl

/-- INVAL takes the two words that the candidate joins (R170, R172). -/
theorem writeInval_candidate (n suffix : Word) (s : State) :
    writeInval (candidate n suffix) s = { s with invalHi := n ^^^ 0x54882F8A#32, invalLo := candidateLow suffix } := by
  rw [writeInval, candidate, highWord_joinWords, lowWord_joinWords]
  rfl

/-- Settles O37: LICASM's completion is the writing of INVAL, DOUT and VV and the clearing of PEND, and its opcode reads
a bank, so NOKEY is among its errors. -/
theorem licasmAssemblesAndDecrypts : Obligations.LicasmAssemblesAndDecrypts := by
  refine ⟨?word, ?completion, acceptanceErrors_op (.licasm (plainFields .bank0))⟩
  case word =>
    intro b
    obtain ⟨-, -, -, -, -, -, -, hlicasm⟩ := assemblerSyntax b .key 0
    exact hlicasm
  case completion =>
    intro f s p hp
    rw [exec_licasm_of_pend hp, writeInval_candidate, bankKeys_eq_ite]
    rfl

end Sys2Proof.Machine
end

section
/-!
PROOFS. The host procedure (44_license.md, R176, R177 and R180): the padded name, its blocks, and the text of a result.
-/

namespace Sys2Proof.Machine

/-! ### The padded name (R176) -/

@[simp] theorem be32_length (v : Word) : (be32 v).length = 4 := rfl

/-- The four bytes of a word, read as one number with the first byte on top, are the word (R54). -/
theorem be32_value (v : Word) : (be32 v).foldl (fun n b => 256 * n + b.toNat) 0 = v.toNat := by
  simp only [be32, List.foldl_cons, List.foldl_nil, BitVec.extractLsb'_toNat, Nat.shiftRight_eq_div_pow]
  omega

/-- The padded length is the smallest multiple of 8, and at least 8, that holds the length field and the name (R176). -/
theorem paddedLength_bounds (n : Nat) :
    paddedLength n % 8 = 0 ∧ 8 ≤ paddedLength n ∧ 4 + n ≤ paddedLength n ∧ paddedLength n < 4 + n + 8 := by
  unfold paddedLength
  omega

/-- The padded name as its length field and what follows it. -/
theorem padName_eq (m : List Byte) : padName m =
    be32 (BitVec.ofNat 32 m.length) ++ (m ++ List.replicate (paddedLength m.length - 4 - m.length) 0) :=
  List.append_assoc ..

theorem padName_length (m : List Byte) : (padName m).length = paddedLength m.length := by
  obtain ⟨-, -, hholds, -⟩ := paddedLength_bounds m.length
  simp only [padName_eq, List.length_append, be32_length, List.length_replicate]
  omega

theorem padName_take_four (m : List Byte) : (padName m).take 4 = be32 (BitVec.ofNat 32 m.length) := by
  rw [padName_eq, List.take_left' (be32_length _)]

theorem padName_drop_four (m : List Byte) :
    (padName m).drop 4 = m ++ List.replicate (paddedLength m.length - 4 - m.length) 0 := by
  rw [padName_eq, List.drop_left' (be32_length _)]

/-- Settles O58: the padded length by its bounds, then the three parts of the message: the length field, the name and
the zeros. -/
theorem paddedMessage : Obligations.PaddedMessage := by
  intro m
  rw [padName_take_four, ← List.drop_drop, padName_drop_four, padName_length]
  obtain ⟨hmultiple, hleast, hholds, hsmallest⟩ := paddedLength_bounds m.length
  refine ⟨rfl, hmultiple, hleast, hholds, hsmallest, ?lengthField, List.take_left, ?zeros⟩
  case lengthField =>
    intro hlen
    rw [be32_value, BitVec.toNat_ofNat, Nat.mod_eq_of_lt hlen]
  case zeros =>
    intro b hb
    rw [List.drop_left] at hb
    exact List.eq_of_mem_replicate hb

/-! ### The blocks of a message (R177) -/

/-- The number whose digits to the base 256 are `n` bytes, the first the most significant (R54). -/
def bigEndian (byte : Nat → Byte) : Nat → Nat
  | 0 => 0
  | n + 1 => 256 * bigEndian byte n + (byte n).toNat

/-- Division drops the `j` bytes after byte `n`, and the remainder keeps byte `n` alone. -/
theorem bigEndian_digit (byte : Nat → Byte) (n j : Nat) :
    bigEndian byte (n + 1 + j) / 2 ^ (8 * j) % 256 = (byte n).toNat := by
  induction j with
  | zero =>
    rw [Nat.mul_zero, Nat.pow_zero, Nat.div_one, Nat.add_zero, bigEndian, Nat.mul_add_mod,
      Nat.mod_eq_of_lt (byte n).isLt]
  | succ j ih =>
    have hdrop : bigEndian byte (n + 1 + (j + 1)) / 256 = bigEndian byte (n + 1 + j) := by
      have hlast : (byte (n + 1 + j)).toNat < 256 := BitVec.isLt _
      rw [← Nat.add_assoc, bigEndian]
      omega
    have hpow : 2 ^ (8 * (j + 1)) = 256 * 2 ^ (8 * j) := by rw [Nat.mul_succ, Nat.pow_add, Nat.mul_comm]
    rw [hpow, ← Nat.div_div_eq_div_mul, hdrop, ih]

/-- A byte put below a value is its last digit to the base 256. -/
theorem append_byte_toNat {n : Nat} (x : BitVec n) (y : Byte) : (x ++ y).toNat = 256 * x.toNat + y.toNat := by
  rw [BitVec.toNat_append, ← Nat.shiftLeft_add_eq_or_of_lt y.isLt, Nat.shiftLeft_eq, Nat.mul_comm]

/-- Block `q` is the big-endian number of its eight bytes (R54, R177). -/
theorem blockAt_toNat (pm : List Byte) (q : Nat) :
    (blockAt pm q).toNat = bigEndian (fun k => pm.getD (8 * q + k) 0) 8 := by
  dsimp only [blockAt]
  iterate 7 rw [append_byte_toNat]
  simp only [bigEndian, Nat.mul_zero, Nat.zero_add]

/-- The bytes of a block are those it was made of, in the same order (R177). -/
theorem byteAt_blockAt (pm : List Byte) (q : Nat) {k : Nat} (hk : k < 8) :
    byteAt (blockAt pm q) k = pm.getD (8 * q + k) 0 := by
  have hcount : k + 1 + (7 - k) = 8 := by omega
  apply BitVec.eq_of_toNat_eq
  rw [byteAt_toNat _ hk, blockAt_toNat, ← bigEndian_digit (fun k => pm.getD (8 * q + k) 0) k (7 - k), hcount]

theorem blocksOf_length (pm : List Byte) : (blocksOf pm).length = pm.length / 8 := by
  rw [blocksOf, List.length_map, List.length_range]

theorem blocksOf_getElem? (pm : List Byte) {q : Nat} (hq : q < pm.length / 8) :
    (blocksOf pm)[q]? = some (blockAt pm q) := by
  rw [blocksOf, List.getElem?_map, List.getElem?_range hq, Option.map_some]

/-- Settles O59: block `q` stands in place `q`, its bytes are those it was made of, and they all lie in the message. -/
theorem blocksAreBigEndian : Obligations.BlocksAreBigEndian := by
  intro m q k hq hk
  have hinside : 8 * q + k < (padName m).length := by omega
  refine ⟨blocksOf_length _, ?_⟩
  rw [blocksOf_getElem? _ hq, Option.map_some, byteAt_blockAt _ _ hk, List.getD_eq_getElem _ _ hinside,
    List.getElem?_eq_getElem hinside]

/-! ### The text of a result (R180) -/

theorem hexDigit_eq_digitChar : ∀ d : BitVec 4, hexDigit d = Nat.digitChar d.toNat := by decide

theorem hexDigit_lowercase :
    ∀ d : BitVec 4, (hexDigit d).isDigit ∨ hexDigit d ∈ ['a', 'b', 'c', 'd', 'e', 'f'] := by decide

/-- The slice of 4 bits above `4 * j` is hexadecimal digit `j` of the number, counted from the lowest (R180). -/
theorem hexDigit_slice {w : Nat} (x : BitVec w) (j : Nat) :
    hexDigit (x.extractLsb' (4 * j) 4) = Nat.digitChar (x.toNat / 16 ^ j % 16) := by
  rw [hexDigit_eq_digitChar, BitVec.extractLsb'_toNat, Nat.shiftRight_eq_div_pow, Nat.pow_mul]

/-- Digit `k` of the two, the first the most significant. -/
theorem hex2_getElem? (v : Byte) {k : Nat} (hk : k < 2) :
    (hex2 v)[k]? = some (Nat.digitChar (v.toNat / 16 ^ (1 - k) % 16)) := by
  rw [← hexDigit_slice]
  match k, hk with
  | 0, _ => rfl
  | 1, _ => rfl

/-- Digit `k` of the sixteen, the first the most significant. -/
theorem hex16_getElem? (out : Block) {k : Nat} (hk : k < 16) :
    (hex16 out)[k]? = some (Nat.digitChar (out.toNat / 16 ^ (15 - k) % 16)) := by
  have hstart : 60 - 4 * k = 4 * (15 - k) := by omega
  rw [← hexDigit_slice, hex16, List.getElem?_map, List.getElem?_range hk, Option.map_some, hstart]

/-- Every character of a text is a hexadecimal digit. -/
theorem mem_hex_eq_hexDigit {v : Byte} {out : Block} {c : Char} (h : c ∈ hex2 v ++ hex16 out) :
    ∃ d, c = hexDigit d := by
  obtain h | h := List.mem_append.mp h
  · obtain rfl | rfl : c = hexDigit (v.extractLsb' 4 4) ∨ c = hexDigit (v.extractLsb' 0 4) := by simpa [hex2] using h
    · exact ⟨_, rfl⟩
    · exact ⟨_, rfl⟩
  · obtain ⟨k, -, rfl⟩ := List.mem_map.mp h
    exact ⟨_, rfl⟩

/-- LICENSE_KEY as the word the statements write (R6). -/
theorem licenseKey_eq : licenseKey = 0xB4F0E0CCEC0EAFAD#64 := by decide

/-- Settles O60: the text is the two digits of vv and the sixteen of out, each a slice of 4 bits, and vv is an absolute
value. -/
theorem derivedTextFormat : Obligations.DerivedTextFormat := by
  intro m suffix iv vv out
  have htext : deriveChars m suffix =
      hex2 (abs8 (xorFold8 iv)) ++ hex16 (decrypt (keySchedule 0xB4F0E0CCEC0EAFAD#64) iv) := by
    rw [← licenseKey_eq]
    rfl
  rw [htext]
  refine ⟨rfl, fun k hk => ?vvDigit, fun k hk => ?outDigit, abs8_toNat_le _, fun c hc => ?lowercase⟩
  case vvDigit => rw [List.getElem?_append_left hk, hex2_getElem? _ hk]
  case outDigit =>
    have hpast : (hex2 (abs8 (xorFold8 iv))).length ≤ k + 2 := Nat.le_add_left ..
    rw [List.getElem?_append_right hpast]
    exact hex16_getElem? _ hk
  case lowercase =>
    obtain ⟨d, rfl⟩ := mem_hex_eq_hexDigit hc
    exact hexDigit_lowercase d

end Sys2Proof.Machine
end

section
/-!
PROOFS. Errors (60_exceptions.md): the record of refusals, the one fault of the machine, the codes of a refused write,
and what keeps and clears the first error.
-/

namespace Sys2Proof.Machine

/-! ### The record of refusals only grows (R202) -/

theorem answerRead_history_suffix (off : Offset) (s : State) (r : Option Word) :
    s.history <:+ (answerRead off s r).history := by
  obtain ⟨v, h⟩ := answerRead_history off s r
  exact h ▸ List.suffix_cons ..

theorem pollStatus_history (s : State) :
    (pollStatus s).history = (answerRead statusOffset s (some (statusWord s))).history := by
  obtain h | h := pollStatus_cases s <;> rw [h]

theorem requireNoError_history (s : State) :
    (requireNoError s).history = (answerRead statusOffset s (some (statusWord s))).history := by
  obtain ⟨-, h⟩ | ⟨-, h⟩ := requireNoError_cases s <;> rw [h]

theorem WriteEffect.history_suffix {v : Word} {s t : State} {r : Reg} (h : WriteEffect v s r t) :
    s.history <:+ t.history := by
  cases h with
  | refusal c => exact raiseError_history c s ▸ List.suffix_cons ..
  | _ => exact List.suffix_rfl

theorem applyInput_history_suffix {a : Input} {s t : State} (h : applyInput s a = .next t) :
    s.history <:+ t.history := by
  cases a with
  | read off n =>
    obtain ⟨-, rfl⟩ := hostRead_next h
    exact answerRead_history_suffix ..
  | write off n v =>
    obtain ⟨-, rfl⟩ := hostWrite_next h
    exact (writeReg_effect ..).history_suffix
  | wait =>
    cases h
    exact pollStatus_history s ▸ answerRead_history_suffix ..
  | require =>
    cases h
    exact requireNoError_history s ▸ answerRead_history_suffix ..
  | reset =>
    cases h
    exact List.suffix_rfl

/-- Settles O57: completions and idling leave the history, and an action from outside adds at most its own entry. -/
theorem historyOnlyGrows : Obligations.HistoryOnlyGrows := by
  intro s t h
  obtain ⟨p, -, -, hx⟩ | ⟨-, rfl⟩ | ⟨a, rest, -, ha⟩ := step_cases h
  · obtain ⟨-, -, hhistory, -⟩ := exec_keeps hx
    exact hhistory ▸ List.suffix_rfl
  · exact List.suffix_rfl
  · exact applyInput_history_suffix (s := takeInput rest s) ha

/-! ### The one fault (R52, R206) -/

/-- An action from outside answers, or it is a bad access and its outcome is the bus error. -/
theorem applyInput_answers_or_busError (a : Input) (s : State) :
    (∃ t, applyInput s a = .next t) ∨
    ∃ (off : Offset) (n : Nat), applyInput s a = .fault (.busError off n) ∧ (n ≠ 4 ∨ off.toNat % 4 ≠ 0) ∧
      (a = .read off n ∨ ∃ v, a = .write off n v) := by
  cases a with
  | read off n =>
    obtain ⟨hfault, hnext⟩ := badAccessIsBusError off n 0 s
    by_cases hok : n = 4 ∧ off.toNat % 4 = 0
    · exact .inl (hnext hok).1
    · have hbad : n ≠ 4 ∨ off.toNat % 4 ≠ 0 := not_and_or.mp hok
      exact .inr ⟨off, n, (hfault hbad).1, hbad, .inl rfl⟩
  | write off n v =>
    obtain ⟨hfault, hnext⟩ := badAccessIsBusError off n v s
    by_cases hok : n = 4 ∧ off.toNat % 4 = 0
    · exact .inl (hnext hok).2
    · have hbad : n ≠ 4 ∨ off.toNat % 4 ≠ 0 := not_and_or.mp hok
      exact .inr ⟨off, n, (hfault hbad).2, hbad, .inr ⟨v, rfl⟩⟩
  | wait | require | reset => exact .inl ⟨_, rfl⟩

/-- Every step is a completion or a step of the host, whatever comes of it (R20). -/
theorem step_eq_exec_or_hostStep (s : State) : (∃ p : Pending, step s = exec p.cmd s) ∨ step s = hostStep s := by
  unfold step
  split
  · exact .inr rfl
  · next p _ =>
    split
    · exact .inl ⟨p, rfl⟩
    · exact .inr rfl

/-- Settles O9: a completion and an idle step answer, and of the host's actions only a bad access does not. -/
theorem onlyFaultIsBusError : Obligations.OnlyFaultIsBusError := by
  intro s
  obtain ⟨p, h⟩ | h := step_eq_exec_or_hostStep s
  · exact .inl (h ▸ exec_answers p.cmd s)
  rw [h, hostStep]
  split
  · exact .inl ⟨s, rfl⟩
  · next a rest hi =>
    obtain hnext | ⟨off, n, hfault, hbad, ha⟩ := applyInput_answers_or_busError a (takeInput rest s)
    · exact .inl hnext
    · exact .inr ⟨off, n, rest, hfault, hbad, by simpa [hi] using ha⟩

/-! ### The codes of a refused write (R201, R203, R205) -/

/-- With a command pending, a host write of CKSUM is refused (R57, R205). -/
theorem hostWrite_cksum_of_busy {s : State} (hb : s.pend.isSome = true) (v : Word) :
    hostWrite 0x028#12 4 v s = .next (raiseError .ovr s) := by
  have hreg : regAt 0x028#12 = .cksum := by decide
  rw [hostWrite_at (by decide), hreg]
  simp [writeReg, hostWriteCksum, busy, hb]

/-- With ERR = 0, a command write that ends with ERR = 1 was refused, and changes nothing else but the code and the
history. -/
theorem accept_frame_of_error {w : Word} {s : State} (hclear : s.err = false) (herr : (accept w s).err = true) :
    accept w s = { s with err := true, ecode := (accept w s).ecode, history := (accept w s).history } := by
  obtain ⟨c, h⟩ | ⟨i, -, -, -, h⟩ := accept_cases w s
  · rw [← herr, h]
    exact raiseError_frame c s
  · have hkept : (accept w s).err = s.err := by rw [h]; rfl
    simp [hkept, hclear] at herr

/-- Settles O22: the checks of acceptance in their order, each with its code; a refused CKSUM write raises OVR, and a
bad access never reaches a register. -/
theorem errorCausesAndPriority : Obligations.ErrorCausesAndPriority := by
  intro w s hclear
  refine ⟨?codes, accept_frame_of_error hclear, ?cksum, ?badAccess⟩
  case codes =>
    split
    · next hbusy => exact accept_of_busy w hbusy ▸ raiseError_of_clear hclear .ovr
    next hbusy =>
    have hidle : s.pend = none := by simpa using hbusy
    split
    · next hill => exact accept_of_illegal hidle (decode_of_illop hill) ▸ raiseError_of_clear hclear .illop
    next hill =>
    have hop : (w.extractLsb' 0 8).toNat ≤ 7 := by omega
    split
    · next hrsvd => exact accept_of_illegal hidle (decode_of_rsvdBits hop hrsvd) ▸ raiseError_of_clear hclear .rsvd
    next hrsvd =>
    obtain ⟨i, hd⟩ := decode_of_legal hop (by simpa using hrsvd)
    obtain ⟨hiop, hif, -⟩ := decode_cmd hd
    simp only [← hiop, ← needsKey_iff_op, keyBit_eq_bankValid, ← hif]
    split
    · next hkey =>
      obtain ⟨hn, hv⟩ := hkey
      exact accept_of_unkeyed hidle hd hn hv ▸ raiseError_of_clear hclear .nokey
    · next hkey =>
      rw [accept_of_keyed hidle hd (by simpa using hkey)]
      exact ⟨hclear, rfl, rfl⟩
  case cksum =>
    intro v hb
    rw [hostWrite_cksum_of_busy hb, raiseError_eq, hclear]
    rfl
  case badAccess =>
    intro off n hbad
    obtain ⟨hfault, -⟩ := badAccessIsBusError off n w s
    exact (hfault hbad).2

/-- Settles O24: CKSUM's write is refused, and a write of an operand changes that operand alone. -/
theorem cksumWriteWhileBusy : Obligations.CksumWriteWhileBusy := by
  intro v s hb
  refine ⟨hostWrite_cksum_of_busy hb v, raiseError_cksum .ovr s, fun off hoff => ?_⟩
  have hplaces : ∀ o ∈ [0x010#12, 0x014#12, 0x018#12, 0x01C#12, 0x02C#12],
      regAt o ∈ operandRegs ∧ o.toNat % 4 = 0 := by decide
  obtain ⟨hreg, ha⟩ := hplaces off hoff
  refine ⟨_, hostWrite_at ha, ?_⟩
  rw [writeReg_eq_withOperands hreg]
  exact ⟨rfl, rfl, rfl, rfl⟩

/-! ### Acceptance and the record of refusals (R200, R202) -/

/-- A word's write has accepted a command just when nothing was pending, the word is that command, and the bank that it
reads is keyed: a refusal would have entered the history. ERR has no part in it. -/
theorem accepted_accept_iff {w : Word} {s : State} {i : Instr} : Accepted i s (accept w s) ↔
    s.pend = none ∧ decode w = .cmd i ∧ (needsKey i = true → bankValid s i.fields.bank = true) := by
  constructor
  · rintro ⟨k, n, hacc⟩
    obtain ⟨c, h⟩ | ⟨j, hd, hp, hk, h⟩ := accept_cases w s
    · have hhistory : (raiseError c s).history = s.history := by rw [← h, hacc]
      simp at hhistory
    · have hpend : (latchCommand j s).pend = (accept w s).pend := by rw [h]
      rw [hacc] at hpend
      obtain rfl : j = i := congrArg Pending.cmd (Option.some.inj hpend)
      exact ⟨hp, hd, hk⟩
  · rintro ⟨hp, hd, hk⟩
    exact accept_of_keyed hp hd hk ▸ accepted_latchCommand i s

/-- Settles O25: a refusal would stand in the history, so the write was the acceptance of its command. -/
theorem noRefusalMeansAccepted : Obligations.NoRefusalMeansAccepted := by
  intro w s hno
  obtain ⟨c, h⟩ | ⟨i, hd, hp, -, h⟩ := accept_cases w s
  · exact absurd (by simp [h]) (hno c)
  · exact ⟨hp, i, hd, h ▸ accepted_latchCommand i s⟩

/-! ### What keeps the first error (R202) -/

/-- With ERR = 1, no write but one of STATUS with bit 3 set changes ERR or ECODE. -/
theorem writeReg_keeps_error {v : Word} {s : State} {r : Reg} (herr : s.err = true)
    (hr : r = .status → v.getLsbD 3 = false) :
    (writeReg v s r).err = true ∧ (writeReg v s r).ecode = s.ecode := by
  cases r with
  | status =>
    rw [writeReg, writeStatus, hr rfl]
    exact ⟨herr, rfl⟩
  | cmd =>
    rw [writeReg]
    obtain ⟨c, h⟩ | ⟨i, -, -, -, h⟩ := accept_cases v s
    · exact h ▸ raiseError_of_set herr c
    · exact h ▸ ⟨herr, rfl⟩
  | cksum =>
    rw [writeReg, hostWriteCksum]
    split
    · exact raiseError_of_set herr .ovr
    · exact ⟨herr, rfl⟩
  | _ => exact ⟨herr, rfl⟩

/-- With ERR = 1, a step that is neither a reset nor a write of STATUS with bit 3 set leaves ERR and ECODE. -/
theorem step_keeps_error {s t : State} (h : step s = .next t) (herr : s.err = true)
    (hreset : ∀ rest, s.inputs ≠ .reset :: rest)
    (hclear : ∀ v rest, v.getLsbD 3 = true → s.inputs ≠ .write 0x004#12 4 v :: rest) :
    t.err = true ∧ t.ecode = s.ecode := by
  obtain ⟨p, -, -, hx⟩ | ⟨-, rfl⟩ | ⟨a, rest, hi, ha⟩ := step_cases h
  · obtain ⟨herr', hcode, -⟩ := exec_keeps hx
    exact ⟨herr'.trans herr, hcode⟩
  · exact ⟨herr, rfl⟩
  · obtain ⟨off, v, rfl, -⟩ | ⟨rfl, -⟩ | hs := applyInput_cases ha
    · obtain ⟨-, rfl⟩ := hostWrite_next ha
      refine writeReg_keeps_error (s := takeInput rest s) herr fun hstatus => ?_
      obtain rfl : off = 0x004#12 := offsetOf_of_regAt hstatus nofun nofun
      by_contra hbit
      exact hclear v rest (by simpa using hbit) hi
    · exact absurd hi (hreset rest)
    · exact ⟨hs.err.trans herr, hs.ecode⟩

/-- Settles O23: a refusal keeps a code that is there, only the two clearing actions end it, and acceptance does not
look at ERR. -/
theorem firstErrorIsKept : Obligations.FirstErrorIsKept := by
  refine ⟨?raise, ?clear, fun s t => step_keeps_error, ?valid, ?accepted⟩
  case raise =>
    intro c s
    exact ⟨by rw [raiseError_eq], fun h => (raiseError_of_clear h c).2, fun h => (raiseError_of_set h c).2,
      raiseError_history c s⟩
  case clear =>
    intro v s hv
    obtain ⟨-, -, -, -, hwrite⟩ := statusFields
    rw [hwrite, if_pos hv]
  case valid =>
    intro w s i _ hp hd hk
    exact accepted_accept_iff.mpr ⟨hp, hd, fun hn => hk ((needsKey_iff_op i).mp hn)⟩
  case accepted =>
    intro w s i hacc
    obtain ⟨hp, hd, hk⟩ := accepted_accept_iff.mp hacc
    exact accepted_accept_iff.mpr ⟨hp, hd, fun hn => (bankValid_congr rfl rfl _).trans (hk hn)⟩

end Sys2Proof.Machine
end

section
/-!
PROOFS. Reset and hazards (70_reset_and_hazards.md): the values after reset, the command that reset discards, and the
completion of a command that nothing disturbs.
-/

namespace Sys2Proof.Machine

/-! ### The completion of a pending command (R242) -/

/-- The command `p` is pending, and no action to come is a bad access or a reset. -/
structure Undisturbed (p : Pending) (s : State) : Prop where
  pend : s.pend = some p
  plain : ∀ a ∈ s.inputs, plainInput a = true

/-- The same command stays undisturbed if the actions to come are among the old ones, or a poll of STATUS. -/
theorem Undisturbed.of_inputs_subset {p : Pending} {s t : State} (hs : Undisturbed p s) (hpend : t.pend = s.pend)
    (hinputs : t.inputs ⊆ .wait :: s.inputs) : Undisturbed p t where
  pend := hpend.trans hs.pend
  plain a ha := by
    obtain rfl | ha := List.mem_cons.mp (hinputs ha)
    · rfl
    · exact hs.plain a ha

/-- A read leaves the pending command, its wait and the actions to come. -/
theorem Undisturbed.answerRead {p : Pending} {s : State} (hs : Undisturbed p s) (off : Offset) (r : Option Word) :
    Undisturbed p (answerRead off s r) :=
  hs.of_inputs_subset (answerRead_pend ..) (by simp)

/-- While BUSY = 1 no write reaches PEND (R200, R205): commands are refused, and no other register is part of it. -/
theorem writeReg_of_busy {s : State} (hb : s.pend.isSome = true) (v : Word) (r : Reg) :
    (writeReg v s r).pend = s.pend ∧ (writeReg v s r).countdown = s.countdown ∧
      (writeReg v s r).inputs = s.inputs := by
  cases r with
  | cmd => simp [writeReg, accept_of_busy v hb]
  | cksum => simp [writeReg, hostWriteCksum, busy, hb]
  | status =>
    rw [writeReg, writeStatus]
    split <;> exact ⟨rfl, rfl, rfl⟩
  | _ => exact ⟨rfl, rfl, rfl⟩

/-- A plain action answers, and leaves an undisturbed command undisturbed and its wait as it is. -/
theorem Undisturbed.applyInput {a : Input} {p : Pending} {s : State} (hs : Undisturbed p s)
    (ha : plainInput a = true) :
    ∃ t, applyInput s a = .next t ∧ Undisturbed p t ∧ t.countdown = s.countdown := by
  cases a with
  | read off n =>
    obtain ⟨rfl, hoff⟩ := (accessOk_iff off n).mp ha
    exact ⟨_, hostRead_at hoff, hs.answerRead .., answerRead_countdown ..⟩
  | write off n v =>
    obtain ⟨rfl, hoff⟩ := (accessOk_iff off n).mp ha
    obtain ⟨hpend, hcountdown, hinputs⟩ := writeReg_of_busy (s := s) (by simp [hs.pend]) v (regAt off)
    exact ⟨_, hostWrite_at hoff, hs.of_inputs_subset hpend (by simp [hinputs]), hcountdown⟩
  | wait =>
    refine ⟨_, rfl, ?_⟩
    obtain h | h := pollStatus_cases s <;> rw [h]
    · exact ⟨hs.answerRead .., answerRead_countdown ..⟩
    · exact ⟨hs.of_inputs_subset (answerRead_pend ..) (List.Subset.refl _), answerRead_countdown ..⟩
  | require =>
    refine ⟨_, rfl, ?_⟩
    obtain ⟨-, h⟩ | ⟨-, h⟩ := requireNoError_cases s <;> rw [h]
    · exact ⟨hs.answerRead .., answerRead_countdown ..⟩
    · have hfewer : s.inputs.filter (· == .reset) ⊆ .wait :: s.inputs :=
        fun _ hb => List.mem_cons_of_mem _ (List.mem_of_mem_filter hb)
      exact ⟨hs.of_inputs_subset (answerRead_pend ..) hfewer, answerRead_countdown ..⟩
  | reset => cases ha

/-- Where it is not the sequencer's turn, the host acts and the undisturbed command has one step less to wait. -/
theorem Undisturbed.step {p : Pending} {s : State} (hs : Undisturbed p s) (hturn : sequencerTurn s = false) :
    ∃ t, step s = .next t ∧ Undisturbed p t ∧ t.countdown = s.countdown - 1 := by
  cases hi : s.inputs with
  | nil => simp [sequencerTurn, hi] at hturn
  | cons a rest =>
    have htaken : Undisturbed p (takeInput rest s) := hs.of_inputs_subset rfl (by simp [hi])
    obtain ⟨t, ht, hrest⟩ := htaken.applyInput (hs.plain a (by simp [hi]))
    refine ⟨t, ?_, hrest⟩
    rw [step_of_not_turn hturn, hostStep, hi]
    exact ht

/-- An undisturbed command comes to the sequencer's turn while it waits. -/
theorem Undisturbed.reaches_turn {p : Pending} {n : Nat} {s : State} (hs : Undisturbed p s) (hn : s.countdown = n) :
    ∃ m ≤ n, ∃ t, runSteps m s = .next t ∧ t.pend = some p ∧ sequencerTurn t = true := by
  induction n generalizing s with
  | zero => exact ⟨0, le_rfl, s, rfl, hs.pend, (sequencerTurn_iff s).mpr (.inl hn)⟩
  | succ n ih =>
    cases hturn : sequencerTurn s with
    | true => exact ⟨0, Nat.zero_le _, s, rfl, hs.pend, hturn⟩
    | false =>
      obtain ⟨u, hstep, hu, hcountdown⟩ := hs.step hturn
      obtain ⟨m, hm, t, hrun, ht⟩ := ih hu (by omega)
      exact ⟨m + 1, Nat.succ_le_succ hm, t, by rw [runSteps, hstep]; exact hrun, ht⟩

/-- Settles O56: the wait falls by one a step, so the sequencer's turn comes, and the step is then the completion. -/
theorem acceptedCommandCompletes : Obligations.AcceptedCommandCompletes := by
  intro s p hp hplain
  obtain ⟨n, hn, t, hrun, hpend, hturn⟩ := Undisturbed.reaches_turn ⟨hp, hplain⟩ rfl
  obtain ⟨u, hu⟩ := exec_answers p.cmd t
  exact ⟨n, hn, t, u, hrun, hpend, step_of_turn hpend hturn, hu, exec_pend hu⟩

/-! ### Reset (R230, R231) -/

/-- The first state is what a reset event leaves of it, so the values after an event are those of both (R230). -/
theorem reset_eq_hardwareReset : State.reset = hardwareReset State.reset := rfl

/-- A reset event leaves no bank valid (R33, R230). -/
theorem bankValid_hardwareReset (s : State) (b : Bank) : bankValid (hardwareReset s) b = false := by
  cases b <;> rfl

/-- After a reset event, a read of a round-key word is free (R33, R230). -/
theorem hostRead_rk_hardwareReset {off : Offset} {b : Bank} {k : Fin 26} (hreg : regAt off = .rk b k)
    (ha : off.toNat % 4 = 0) (s : State) :
    hostRead off 4 (hardwareReset s) = .next (AnsweredFreely off (hardwareReset s)) :=
  hostRead_free ha (hreg ▸ readValue_rk_of_unkeyed (bankValid_hardwareReset s b) k)

/-- Settles O1: both states are what a reset event leaves; ID and VV have their values, and no bank is valid. -/
theorem resetValues : Obligations.ResetValues := by
  refine ⟨fun s => ⟨_, rfl⟩, fun s t ht => ?_⟩
  obtain ⟨u, rfl⟩ : ∃ u, t = hardwareReset u := by
    obtain rfl | h := ht
    · exact ⟨_, reset_eq_hardwareReset⟩
    · cases h
      exact ⟨s, rfl⟩
  obtain ⟨hid, -⟩ := idReadsItsConstant (hardwareReset u) 0
  have hvv : regAt 0x038#12 = .vv := by decide
  have hzero : zext32 0 = 0 := by decide
  refine ⟨hid, rfl, statusWord_busy _, rfl, rfl, rfl, rfl, rfl, rfl, rfl, rfl, rfl, rfl, rfl, rfl, rfl, rfl,
    hostRead_answered rfl (by rw [hvv, ← hzero]; rfl), fun k => ?roundKeys⟩
  case roundKeys =>
    obtain ⟨hreg0, ha0⟩ := regAt_rk0 k
    obtain ⟨hreg1, ha1⟩ := regAt_rk1 k
    exact ⟨hostRead_rk_hardwareReset hreg0 ha0 u, hostRead_rk_hardwareReset hreg1 ha1 u⟩

/-- Settles O2: the step is the host's, and its action is the reset event. -/
theorem resetDiscardsPending : Obligations.ResetDiscardsPending := by
  intro s p rest _ hi hturn
  have hstep : step s = .next (hardwareReset (takeInput rest s)) := by
    rw [step_of_not_turn hturn, hostStep, hi]
    rfl
  exact ⟨_, hstep, rfl, rfl, rfl, rfl, rfl, rfl, rfl, rfl, rfl, rfl⟩

/-- Settles O51: the invariant's rule for the reset state. -/
theorem resetMeetsInvariant : Obligations.ResetMeetsInvariant := stateInv_reset

end Sys2Proof.Machine
end
